-- ==== Sys2Proof/Word.lean ====
section
/-! DEFINITION. The bit vectors the interface and the stores are made of, and the rounded-up division of the spec. -/

namespace Sys2Proof

/-- One command, 64 bits, bit 63 the most significant (R50). -/
abbrev CommandWord := BitVec 64

/-- One completion record, 64 bits (R58). -/
abbrev CompletionRecord := BitVec 64

/-- The value of a bank field RD or RS: an unsigned 4-bit integer (R63). -/
abbrev BankNumber := BitVec 4

/-- The immediate operand IMM, unsigned (R8, R63); also the width of a capacity register (R11) and of DATA (R58). -/
abbrev Immediate := BitVec 32

/-- The status code field ST of a completion record (R58). -/
abbrev StatusCode := BitVec 8

/-- `ceil(a / b)` of 00_scope.md section 5, on integers that do not wrap (R80, corner case 5). -/
def divUp (a b : Nat) : Nat := (a + b - 1) / b

end Sys2Proof
end

