-- ==== Sys2Proof/Config.lean ====
section
/-! DEFINITION. What one built engine fixes: its parameters W, NBANKS and MAXWORDS (R5 to R7). No rule leaves a value
free, so there is no free value here. -/

namespace Sys2Proof

/-- The supported word widths (R5); no other width is a BitStore engine (U7). -/
inductive WordWidth where
  | w8
  | w16
  | w32
  | w64
deriving DecidableEq, Repr

/-- The number of bits of a word. -/
abbrev WordWidth.bits : WordWidth → Nat
  | .w8 => 8
  | .w16 => 16
  | .w32 => 32
  | .w64 => 64

/-- The parameters of one engine: constants of it that no command reads directly or changes (R5 to R7). -/
structure Instance where
  /-- `W`, R5. -/
  width : WordWidth
  /-- `NBANKS`, R6. -/
  nbanks : Nat
  /-- `MAXWORDS`, R7. -/
  maxWords : Nat
deriving DecidableEq, Repr

/-- `W` as a number of bits (R5). -/
abbrev Instance.W (p : Instance) : Nat := p.width.bits

/-- The legal parameter values: 1 to 16 banks (R6), 1 to `2^32 / W` words behind a bank (R7). -/
def Instance.legal (p : Instance) : Bool :=
  decide (1 ≤ p.nbanks) && decide (p.nbanks ≤ 16) && decide (1 ≤ p.maxWords) && decide (p.maxWords ≤ 2 ^ 32 / p.W)

end Sys2Proof
end

