-- ==== Sys2Proof/Machine/Instance.lean ====
section
/-! DEFINITION. The engines the spec names: the default one, and the three of its test vectors. -/

namespace Sys2Proof.Machine

/-- Test machine T8 (00_scope.md section 4, D30). -/
def instT8 : Instance := { width := .w8, nbanks := 4, maxWords := 8 }

/-- Test machine T32 (00_scope.md section 4, D30). -/
def instT32 : Instance := { width := .w32, nbanks := 4, maxWords := 4 }

/-- Test machine T64 (00_scope.md section 4, D30). -/
def instT64 : Instance := { width := .w64, nbanks := 2, maxWords := 2 }

/-- The engine of `State.reset`: the defaults W = 32 (R5) and NBANKS = 4 (R6).
DESIGN CHOICE (log 2), unsafe for a claim about the run from `State.reset` alone: R7 leaves MAXWORDS open and gives no
default; 4 is T32's, the one engine the spec writes out with both defaults. Every statement is about every engine. -/
def instDefault : Instance := { width := .w32, nbanks := 4, maxWords := 4 }

end Sys2Proof.Machine
end

