-- ==== Sys2Proof/Machine/State.lean ====
section
/-! DEFINITION. The state of the engine (R10) and of its ports (R4), the reasons a step can stop, and the reset state. -/

namespace Sys2Proof.Machine

/-- One bank: its capacity register `CAP[b]` (R11) and its words `MEM[b]` in index order (R13), padding bits included as
ordinary bits (R15). Storage past the last word is not state (R16). -/
structure Bank (W : Nat) where
  cap : Immediate
  words : List (BitVec W)
deriving DecidableEq, Repr

/-- A bank that holds no store: `CAP[b] = 0` and no word (R11, R23). -/
def Bank.unconstructed (W : Nat) : Bank W := { cap := 0, words := [] }

/-- The bit store: the banks in order of their number (R10, R35). DESIGN CHOICE, safe (log 3): the sequences of words of
R13 themselves, since R35 and R36 give the engine no byte address and no byte order. -/
abbrev Memory (W : Nat) := List (Bank W)

/-- One transfer from the engine to the host: a bit on STR (R61) or a record on CPL (R58). -/
inductive Transfer where
  | stream (bit : Bool)
  | completion (record : CompletionRecord)
deriving DecidableEq, Repr

/-- What stands on the engine's ports between two commands (R4). -/
structure Ports where
  /-- The reset input is asserted (R120). -/
  resetIn : Bool
  /-- Command words the host has offered on CMD and the engine has not taken, oldest first (R50, R62). -/
  cmd : List CommandWord
  /-- The number of command words taken since reset (R62, R121). -/
  taken : Nat
  /-- Every transfer the engine has offered since reset, oldest first: CPL and STR in the one order of R42. -/
  sent : List Transfer
  /-- How many of `sent` the host has taken (R126). -/
  delivered : Nat
  /-- The MODEL's own field: the host takes what the engine offers, its duty (1) of R126 (log 5). -/
  hostTakes : Bool
deriving DecidableEq, Repr

/-- The whole state. `inst` is the engine's constants (R5 to R7), carried so that one model is every engine; no step
changes it (log 1). -/
structure State where
  inst : Instance
  mem : Memory inst.W
  ports : Ports
deriving DecidableEq, Repr

/-- No step of this machine stops with a fault, so there is no constructor: an error is a completion record after which
the engine goes on (R104, R107), and there is no halted or locked state. DEDUCED, safe (log 12). -/
inductive Fault where
deriving DecidableEq, Repr

/-- Why a command has no meaning in the model. -/
inductive Refusal where
  /-- Raised by an arm of `exec` whose command has no meaning yet; safe. No arm raises it: all thirteen are modelled. -/
  | notModelled (mnemonic : String)
deriving DecidableEq, Repr

/-- The ports after reset: nothing in progress, nothing offered, the count at zero (R121). DESIGN CHOICE, unsafe (log 5):
the host takes what is offered. -/
def Ports.reset : Ports :=
  { resetIn := false, cmd := [], taken := 0, sent := [], delivered := 0, hostTakes := true }

/-- The reset state of a given engine: every bank unconstructed (R23, R121). -/
def State.resetOf (p : Instance) : State :=
  { inst := p, mem := List.replicate p.nbanks (Bank.unconstructed p.W), ports := Ports.reset }

/-- The machine right after reset, for the default engine. -/
def State.reset : State := State.resetOf instDefault

end Sys2Proof.Machine
end

