-- ==== Sys2Proof/Machine/Operands.lean ====
section
/-! DEFINITION. The operand forms (R51, R63) and the address arithmetic of BitAddress (R30, R32). -/

namespace Sys2Proof.Machine

/-- A bank field as a bank number (R51, R63). -/
abbrev bankIndex (b : BankNumber) : Nat := b.toNat

/-- `zext(IMM)`: the immediate as an unsigned integer, never sign-extended or scaled (R63). -/
abbrev immValue (imm : Immediate) : Nat := imm.toNat

/-- `zext_32` of a bank number: the handle returned in DATA (R60). -/
def handle (b : BankNumber) : Immediate := b.setWidth 32

/-- `zext_32` of a bit (R60, GET). -/
def bitData (v : Bool) : Immediate := (BitVec.ofBool v).setWidth 32

/-- BitAddress, word index: `i div W` (R30). -/
def wordIndex (W i : Nat) : Nat := i / W

/-- BitAddress, local offset: `i mod W` (R30). -/
def localOffset (W i : Nat) : Nat := i % W

/-- The bit position of logical bit `i` in its word: `W - 1 - o`, offset 0 the most significant bit (R32). -/
def bitPosition (W i : Nat) : Nat := W - 1 - localOffset W i

/-- `1 << (W - 1 - o)`: the word with only the bit of index `i` set (R34). -/
def bitMask (W i : Nat) : BitVec W := 1#W <<< bitPosition W i

/-- `ONES` for bit 1 and 0 for bit 0 (00_scope.md section 5, R95). -/
def fillWord (W : Nat) (bit : Bool) : BitVec W := if bit then BitVec.allOnes W else 0#W

/-- A word shifted left by `n`, zero-filled, truncated to W bits, all zero from `n = W` on (R91, R92).
DESIGN CHOICE among U4's two treatments, unsafe (log 9). -/
def shiftWordLeft {W : Nat} (n : Nat) (w : BitVec W) : BitVec W := if n ≥ W then 0#W else w <<< n

/-- A word shifted right by `n`, zero-filled (logical), all zero from `n = W` on (R91, R93).
DESIGN CHOICE among U4's two treatments, unsafe (log 9). -/
def shiftWordRight {W : Nat} (n : Nat) (w : BitVec W) : BitVec W := if n ≥ W then 0#W else w >>> n

end Sys2Proof.Machine
end

