-- ==== Sys2Proof/Machine/Flags.lean ====
section
/-! DEFINITION. What stands in for flags: the engine has none (R20). A command's outcome is its completion record: the
errors (R100), the status codes (R59) and the record's layout (R58). -/

namespace Sys2Proof.Machine

/-- The errors, the complete list of R100. -/
inductive ErrorKind where
  /-- Raised by GET and SET (R101). -/
  | indexOutOfRange
  /-- Raised by AND, OR and XOR (R102). -/
  | sizeMismatch
  /-- Raised for a word that is no legal command (R103). -/
  | illegalCommand
  /-- Raised by INIT (R105). -/
  | capacityRange
deriving DecidableEq, Repr

/-- `ST = OK` (R59). -/
def statusOk : StatusCode := 0x00

/-- The status code of an error (R59). -/
def ErrorKind.code : ErrorKind → StatusCode
  | .indexOutOfRange => 0x01
  | .sizeMismatch => 0x02
  | .illegalCommand => 0x03
  | .capacityRange => 0x04

/-- `cpl = ST ‖ 0 (24 bits) ‖ DATA` (R58). -/
def completionRecord (st : StatusCode) (data : Immediate) : CompletionRecord := st ++ 0#24 ++ data

/-- Field ST of a record (R58). -/
def statusOf (r : CompletionRecord) : StatusCode := r.extractLsb' 56 8

/-- Field DATA of a record (R58). -/
def dataOf (r : CompletionRecord) : Immediate := r.extractLsb' 0 32

end Sys2Proof.Machine
end

