-- ==== Sys2Proof/Machine/Ops.lean ====
section
/-! DEFINITION. The named operations over a bank, the memory and the state; among them, once, what raising an error does
(R104). There is no trap entry and no return from one (R109, R110). -/

namespace Sys2Proof.Machine

/-- What a meaning answers. -/
abbrev Result := Host.Outcome State Fault Refusal

/-! One bank. -/

/-- `WC = ceil(CAP / W)` (R12). -/
def Bank.wordCount {W : Nat} (x : Bank W) : Nat := divUp x.cap.toNat W

/-- `MEM[b][k]`, for `k < WC(b)` (R13). No command reads a word past the last one; there the function is 0 (log 10). -/
def Bank.word {W : Nat} (x : Bank W) (k : Nat) : BitVec W := x.words.getD k 0#W

/-- `MEM[b][k] <- v` (R13). -/
def Bank.setWord {W : Nat} (x : Bank W) (k : Nat) (v : BitVec W) : Bank W := { x with words := x.words.set k v }

/-- `ReadBit(b, i)`: `(MEM[b][k] >> (W - 1 - o)) & 1` (R33). -/
def Bank.readBit {W : Nat} (x : Bank W) (i : Nat) : Bool :=
  ((x.word (wordIndex W i) >>> bitPosition W i) &&& 1#W) == 1#W

/-- `WriteBit(b, i, v)`: OR the mask in for 1, AND its complement for 0 (R34). -/
def Bank.writeBit {W : Nat} (x : Bank W) (i : Nat) (v : Bool) : Bank W :=
  x.setWord (wordIndex W i)
    (if v then x.word (wordIndex W i) ||| bitMask W i else x.word (wordIndex W i) &&& ~~~(bitMask W i))

/-- A new store of `cap` logical bits, all words zero (R80). -/
def Bank.fresh (W : Nat) (cap : Immediate) : Bank W :=
  { cap := cap, words := List.replicate (divUp (immValue cap) W) 0#W }

/-- `for k in 0 .. WC-1: MEM[b][k] <- f MEM[b][k]` (R38). -/
def Bank.mapWords {W : Nat} (f : BitVec W → BitVec W) (x : Bank W) : Bank W := { x with words := x.words.map f }

/-- `for k in 0 .. WC-1: MEM[b][k] <- f MEM[b][k] MEM[c][k]`, the two word counts being equal (R86). -/
def Bank.zipWords {W : Nat} (f : BitVec W → BitVec W → BitVec W) (x y : Bank W) : Bank W :=
  { x with words := List.zipWith f x.words y.words }

/-- The logical bits of a bank in index order (R97). -/
def Bank.logicalBits {W : Nat} (x : Bank W) : List Bool := (List.range x.cap.toNat).map x.readBit

/-- The state invariant for one bank (R13, R14): as many words as the capacity asks for, and no more than MAXWORDS. -/
def Bank.wf {W : Nat} (maxWords : Nat) (x : Bank W) : Bool :=
  decide (x.words.length = x.wordCount) && decide (x.wordCount ≤ maxWords)

/-- The one form of the bit store: NBANKS banks, each meeting R14. -/
def Memory.wf {W : Nat} (nbanks maxWords : Nat) (m : Memory W) : Bool :=
  decide (m.length = nbanks) && m.all (Bank.wf maxWords)

/-! The banks of a state. -/

/-- `W` of the engine. -/
abbrev State.W (s : State) : Nat := s.inst.W

/-- Bank `b`; a number at or past NBANKS names none, and reads as a store of zero bits. -/
def State.bank (s : State) (b : Nat) : Bank s.W := s.mem.getD b (Bank.unconstructed s.W)

/-- Replace bank `b` and no other (R17). -/
def State.setBank (s : State) (b : Nat) (x : Bank s.W) : State := { s with mem := s.mem.set b x }

/-- `b < NBANKS`, the check of R56. -/
def State.hasBank (s : State) (b : BankNumber) : Bool := decide (bankIndex b < s.inst.nbanks)

/-! How a command ends (00_scope.md section 6). -/

/-- Offer transfers to the host, in order (R42). -/
def State.send (s : State) (ts : List Transfer) : State := { s with ports := { s.ports with sent := s.ports.sent ++ ts } }

/-- `emit(v)` for each bit, in order (R61). -/
def State.emit (s : State) (bits : List Bool) : State := s.send (bits.map .stream)

/-- `complete(d)`: the completion record with status OK and DATA = d (R58, R60). -/
def State.complete (s : State) (d : Immediate) : Result := .next (s.send [.completion (completionRecord statusOk d)])

/-- `raise e`: no bank changes, no stream bit, the completion record carries the error's code and DATA = 0; nothing else
remains of it and the engine goes on (R104, R107). -/
def State.raise (s : State) (e : ErrorKind) : Result := .next (s.send [.completion (completionRecord e.code 0)])

/-! Shapes of meanings. -/

/-- A command on bank RD: IllegalCommand if RD is not below NBANKS (R56), before any other check (R106). -/
def State.onReceiver (s : State) (rd : BankNumber) (run : Bank s.W → Result) : Result :=
  if s.hasBank rd then run (s.bank (bankIndex rd)) else s.raise .illegalCommand

/-- A command on banks RD and RS: IllegalCommand if either is not below NBANKS (R56). -/
def State.onPair (s : State) (rd rs : BankNumber) (run : Bank s.W → Bank s.W → Result) : Result :=
  if s.hasBank rd && s.hasBank rs then run (s.bank (bankIndex rd)) (s.bank (bankIndex rs))
  else s.raise .illegalCommand

/-- The receiver is overwritten by `x` and its handle is the result (R60). -/
def State.receive (s : State) (rd : BankNumber) (x : Bank s.W) : Result :=
  (s.setBank (bankIndex rd) x).complete (handle rd)

/-- A unary bulk command: every word of the receiver, padding included, by itself (R86, R91, R95). -/
def State.bulkUnary (s : State) (rd : BankNumber) (f : BitVec s.W → BitVec s.W) : Result :=
  s.onReceiver rd fun x => s.receive rd (x.mapWords f)

/-- A binary bulk command: SizeMismatch unless the word counts agree, before any write; then word by word (R86, R102). -/
def State.bulkBinary (s : State) (rd rs : BankNumber) (f : BitVec s.W → BitVec s.W → BitVec s.W) : Result :=
  s.onPair rd rs fun x y =>
    if x.wordCount = y.wordCount then s.receive rd (x.zipWords f y) else s.raise .sizeMismatch

/-- An indexed access: IndexOutOfRange exactly when the index is at or past the capacity in bits (R31, R101). -/
def State.indexed (s : State) (rd : BankNumber) (idx : Immediate) (run : Bank s.W → Nat → Result) : Result :=
  s.onReceiver rd fun x =>
    if immValue idx ≥ x.cap.toNat then s.raise .indexOutOfRange else run x (immValue idx)

/-! What can be seen of a state, as values that do not depend on the engine's width. -/

/-- `CAP[b]`. -/
def State.cap (s : State) (b : Nat) : Immediate := (s.bank b).cap

/-- `WC(b)`. -/
def State.wc (s : State) (b : Nat) : Nat := (s.bank b).wordCount

/-- `MEM[b][k]` as a number. -/
def State.wordVal (s : State) (b k : Nat) : Nat := ((s.bank b).word k).toNat

/-- The words of `MEM[b]` as numbers. -/
def State.wordVals (s : State) (b : Nat) : List Nat := (s.bank b).words.map BitVec.toNat

/-- The bit at slot `i` of bank `b`, a logical bit below `CAP[b]` and a padding bit from there to `WC(b) * W` (R15, R32). -/
def State.slot (s : State) (b i : Nat) : Bool := (s.bank b).readBit i

end Sys2Proof.Machine
end

