-- ==== Sys2Proof/Machine/Access.lean ====
section
/-! DEFINITION. GET and SET (41_indexed_access.md). -/

namespace Sys2Proof.Machine

/-- GET, R83: DATA is the logical bit; no state changes. -/
def execGet (rd : BankNumber) (idx : Immediate) (s : State) : Result :=
  s.indexed rd idx fun x i => s.complete (bitData (x.readBit i))

/-- SET, R84: the logical bit becomes `bit`; DATA is 0, not the handle. -/
def execSet (rd : BankNumber) (idx : Immediate) (bit : Bool) (s : State) : Result :=
  s.indexed rd idx fun x i => (s.setBank (bankIndex rd) (x.writeBit i bit)).complete 0

end Sys2Proof.Machine
end

