-- ==== Sys2Proof/Machine/Boolean.lean ====
section
/-! DEFINITION. AND, OR, XOR and NOT (42_bulk_boolean.md). -/

namespace Sys2Proof.Machine

/-- AND, R87. -/
def execAnd (rd rs : BankNumber) (s : State) : Result := s.bulkBinary rd rs fun x y => x &&& y

/-- OR, R88. -/
def execOr (rd rs : BankNumber) (s : State) : Result := s.bulkBinary rd rs fun x y => x ||| y

/-- XOR, R89. -/
def execXor (rd rs : BankNumber) (s : State) : Result := s.bulkBinary rd rs fun x y => x ^^^ y

/-- NOT, R90: the W-bit complement. -/
def execNot (rd : BankNumber) (s : State) : Result := s.bulkUnary rd fun x => ~~~x

end Sys2Proof.Machine
end

