-- ==== Sys2Proof/Machine/Construction.lean ====
section
/-! DEFINITION. INIT (40_construction.md). -/

namespace Sys2Proof.Machine

/-- The capacity is 0 or needs more than MAXWORDS words (R80, R105). -/
def capacityRefused (p : Instance) (cap : Immediate) : Bool :=
  decide (immValue cap = 0) || decide (divUp (immValue cap) p.W > p.maxWords)

/-- INIT, R80: a new all-zero store in RD, whatever RD held. -/
def execInit (rd : BankNumber) (cap : Immediate) (s : State) : Result :=
  s.onReceiver rd fun _ =>
    if capacityRefused s.inst cap then s.raise .capacityRange else s.receive rd (Bank.fresh s.W cap)

end Sys2Proof.Machine
end

