-- ==== Sys2Proof/Machine/CopyFill.lean ====
section
/-! DEFINITION. COPY and FILL (44_copy_fill.md). -/

namespace Sys2Proof.Machine

/-- COPY, R94: RD becomes the store of RS, capacity and all words, padding included; whatever RD held is discarded. -/
def execCopy (rd rs : BankNumber) (s : State) : Result := s.onPair rd rs fun _ y => s.receive rd y

/-- FILL, R95: every word all zeros or all ones. -/
def execFill (rd : BankNumber) (bit : Bool) (s : State) : Result := s.bulkUnary rd fun _ => fillWord s.W bit

end Sys2Proof.Machine
end

