-- ==== Sys2Proof/Machine/Query.lean ====
section
/-! DEFINITION. BYTES and ITER (45_query_iterate.md). -/

namespace Sys2Proof.Machine

/-- BYTES, R96: `WC(RD) * (W div 8)`. -/
def execBytes (rd : BankNumber) (s : State) : Result :=
  s.onReceiver rd fun x => s.complete (BitVec.ofNat 32 (x.wordCount * (s.W / 8)))

/-- ITER, R97: every logical bit on the stream port in index order, then the completion with DATA = CAP. One step: no
other command runs between two stream bits (R62). DEDUCED, safe (log 13). -/
def execIter (rd : BankNumber) (s : State) : Result :=
  s.onReceiver rd fun x => (s.emit x.logicalBits).complete x.cap

end Sys2Proof.Machine
end

