-- ==== Sys2Proof/Machine/Shift.lean ====
section
/-! DEFINITION. LSHIFT and RSHIFT (43_shift.md): every word by itself, no bit carried between words (R91). -/

namespace Sys2Proof.Machine

/-- LSHIFT, R92. -/
def execLshift (rd : BankNumber) (num : Immediate) (s : State) : Result :=
  s.bulkUnary rd (shiftWordLeft (immValue num))

/-- RSHIFT, R93. -/
def execRshift (rd : BankNumber) (num : Immediate) (s : State) : Result :=
  s.bulkUnary rd (shiftWordRight (immValue num))

end Sys2Proof.Machine
end

