-- ==== Sys2Proof/Syntax.lean ====
section
/-! DEFINITION. The thirteen commands, one constructor per row of the opcode map (R2, R52), with the operand fields each
row uses (R51, R63). -/

namespace Sys2Proof

/-- A command with its operands. `rd` names the receiver or destination bank, `rs` the other or copied bank (R51);
`bit` is the one-bit field B; `cap`, `idx` and `num` are the immediate IMM. -/
inductive Instr where
  /-- INIT, R80. -/
  | init (rd : BankNumber) (cap : Immediate)
  /-- GET, R83. -/
  | get (rd : BankNumber) (idx : Immediate)
  /-- SET, R84. -/
  | set (rd : BankNumber) (idx : Immediate) (bit : Bool)
  /-- AND, R87. -/
  | and (rd rs : BankNumber)
  /-- OR, R88. -/
  | or (rd rs : BankNumber)
  /-- XOR, R89. -/
  | xor (rd rs : BankNumber)
  /-- NOT, R90. -/
  | not (rd : BankNumber)
  /-- LSHIFT, R92. -/
  | lshift (rd : BankNumber) (num : Immediate)
  /-- RSHIFT, R93. -/
  | rshift (rd : BankNumber) (num : Immediate)
  /-- COPY, R94. -/
  | copy (rd rs : BankNumber)
  /-- FILL, R95. -/
  | fill (rd : BankNumber) (bit : Bool)
  /-- BYTES, R96. -/
  | bytes (rd : BankNumber)
  /-- ITER, R97. -/
  | iter (rd : BankNumber)
deriving DecidableEq, Repr

/-- The thirteen mnemonics of the opcode map (R52). -/
inductive Mnemonic where
  | INIT | GET | SET | AND | OR | XOR | NOT | LSHIFT | RSHIFT | COPY | FILL | BYTES | ITER
deriving DecidableEq, Repr

/-- The mnemonic as the opcode map spells it (R52). -/
def Mnemonic.name : Mnemonic → String
  | .INIT => "INIT"
  | .GET => "GET"
  | .SET => "SET"
  | .AND => "AND"
  | .OR => "OR"
  | .XOR => "XOR"
  | .NOT => "NOT"
  | .LSHIFT => "LSHIFT"
  | .RSHIFT => "RSHIFT"
  | .COPY => "COPY"
  | .FILL => "FILL"
  | .BYTES => "BYTES"
  | .ITER => "ITER"

/-- The row of the opcode map a command belongs to (R52). -/
def Instr.mnemonic : Instr → Mnemonic
  | .init _ _ => .INIT
  | .get _ _ => .GET
  | .set _ _ _ => .SET
  | .and _ _ => .AND
  | .or _ _ => .OR
  | .xor _ _ => .XOR
  | .not _ => .NOT
  | .lshift _ _ => .LSHIFT
  | .rshift _ _ => .RSHIFT
  | .copy _ _ => .COPY
  | .fill _ _ => .FILL
  | .bytes _ => .BYTES
  | .iter _ => .ITER

/-- The field RD: the only bank a command may change (R17, R51). -/
def Instr.rd : Instr → BankNumber
  | .init rd _ => rd
  | .get rd _ => rd
  | .set rd _ _ => rd
  | .and rd _ => rd
  | .or rd _ => rd
  | .xor rd _ => rd
  | .not rd => rd
  | .lshift rd _ => rd
  | .rshift rd _ => rd
  | .copy rd _ => rd
  | .fill rd _ => rd
  | .bytes rd => rd
  | .iter rd => rd

/-- The field RS: the other bank of AND, OR, XOR and COPY, 0 in every other command (R51, R54). -/
def Instr.rs : Instr → BankNumber
  | .init _ _ => 0
  | .get _ _ => 0
  | .set _ _ _ => 0
  | .and _ rs => rs
  | .or _ rs => rs
  | .xor _ rs => rs
  | .not _ => 0
  | .lshift _ _ => 0
  | .rshift _ _ => 0
  | .copy _ rs => rs
  | .fill _ _ => 0
  | .bytes _ => 0
  | .iter _ => 0

/-- The field B: the bit operand of SET and FILL, 0 in every other command (R51, R54). -/
def Instr.bit : Instr → Bool
  | .init _ _ => false
  | .get _ _ => false
  | .set _ _ bit => bit
  | .and _ _ => false
  | .or _ _ => false
  | .xor _ _ => false
  | .not _ => false
  | .lshift _ _ => false
  | .rshift _ _ => false
  | .copy _ _ => false
  | .fill _ bit => bit
  | .bytes _ => false
  | .iter _ => false

/-- The field IMM: capacity, index or count, 0 in every other command (R51, R54). -/
def Instr.imm : Instr → Immediate
  | .init _ cap => cap
  | .get _ idx => idx
  | .set _ idx _ => idx
  | .and _ _ => 0
  | .or _ _ => 0
  | .xor _ _ => 0
  | .not _ => 0
  | .lshift _ num => num
  | .rshift _ num => num
  | .copy _ _ => 0
  | .fill _ _ => 0
  | .bytes _ => 0
  | .iter _ => 0

end Sys2Proof
end

