-- ==== Sys2Proof/Machine/Dispatch.lean ====
section
/-! DEFINITION. One arm per command (R52). -/

namespace Sys2Proof.Machine

def exec (i : Instr) (s : State) : Host.Outcome State Fault Refusal :=
  match i with
  | .init rd cap => Sys2Proof.Machine.execInit rd cap s
  | .get rd idx => Sys2Proof.Machine.execGet rd idx s
  | .set rd idx bit => Sys2Proof.Machine.execSet rd idx bit s
  | .and rd rs => Sys2Proof.Machine.execAnd rd rs s
  | .or rd rs => Sys2Proof.Machine.execOr rd rs s
  | .xor rd rs => Sys2Proof.Machine.execXor rd rs s
  | .not rd => Sys2Proof.Machine.execNot rd s
  | .lshift rd num => Sys2Proof.Machine.execLshift rd num s
  | .rshift rd num => Sys2Proof.Machine.execRshift rd num s
  | .copy rd rs => Sys2Proof.Machine.execCopy rd rs s
  | .fill rd bit => Sys2Proof.Machine.execFill rd bit s
  | .bytes rd => Sys2Proof.Machine.execBytes rd s
  | .iter rd => Sys2Proof.Machine.execIter rd s

end Sys2Proof.Machine
end

