-- ==== Sys2Proof/WellFormed.lean ====
section
/-! DEFINITION. The check on a command that its syntax does not express: its banks exist in the engine (R56). -/

namespace Sys2Proof

/-- The bank-range rule R56: RD is below NBANKS in every command, RS in AND, OR, XOR and COPY. -/
def Instr.wellFormed (nbanks : Nat) : Instr → Bool
  | .init rd _ => decide (rd.toNat < nbanks)
  | .get rd _ => decide (rd.toNat < nbanks)
  | .set rd _ _ => decide (rd.toNat < nbanks)
  | .and rd rs => decide (rd.toNat < nbanks) && decide (rs.toNat < nbanks)
  | .or rd rs => decide (rd.toNat < nbanks) && decide (rs.toNat < nbanks)
  | .xor rd rs => decide (rd.toNat < nbanks) && decide (rs.toNat < nbanks)
  | .not rd => decide (rd.toNat < nbanks)
  | .lshift rd _ => decide (rd.toNat < nbanks)
  | .rshift rd _ => decide (rd.toNat < nbanks)
  | .copy rd rs => decide (rd.toNat < nbanks) && decide (rs.toNat < nbanks)
  | .fill rd _ => decide (rd.toNat < nbanks)
  | .bytes rd => decide (rd.toNat < nbanks)
  | .iter rd => decide (rd.toNat < nbanks)

end Sys2Proof
end

