-- ==== Sys2Proof/Decode.lean ====
section
/-! DEFINITION. The decoder of command words (R50 to R57), total on all 64-bit words, the encoder, and the opcode map's
mask and match values (R52). -/

namespace Sys2Proof

/-! Field extraction from format C (R50). -/

/-- Field OP, bits 63:56. -/
def opOf (w : CommandWord) : BitVec 8 := w.extractLsb' 56 8

/-- Field RD, bits 55:52. -/
def rdOf (w : CommandWord) : BankNumber := w.extractLsb' 52 4

/-- Field RS, bits 51:48. -/
def rsOf (w : CommandWord) : BankNumber := w.extractLsb' 48 4

/-- Field Z, bits 47:33, reserved. -/
def zOf (w : CommandWord) : BitVec 15 := w.extractLsb' 33 15

/-- Field B, bit 32. -/
def bOf (w : CommandWord) : Bool := w.getLsbD 32

/-- Field IMM, bits 31:0. -/
def immOf (w : CommandWord) : Immediate := w.extractLsb' 0 32

/-- Why a word is no command. All three raise IllegalCommand (R57), as does an absent bank (R56), which depends on NBANKS
and is checked first by every meaning. -/
inductive Reject where
  /-- R53: OP is 0x00 or 0x0E to 0xFF. -/
  | reservedOpcode
  /-- R54: a field the command does not use is not zero. -/
  | unusedField
  /-- R55: field Z is not zero. -/
  | reservedBits
deriving DecidableEq, Repr

/-- The command `i`, if the fields it does not use are zero (R54). -/
def whenClear (clear : Bool) (i : Instr) : Except Reject Instr :=
  if clear then .ok i else .error .unusedField

/-- Field RS is zero, as R54 asks of every command but AND, OR, XOR and COPY. -/
def rsClear (w : CommandWord) : Bool := rsOf w == 0#4

/-- Field B is zero, as R54 asks of every command but SET and FILL. -/
def bClear (w : CommandWord) : Bool := !bOf w

/-- Field IMM is zero, as R54 asks of every command but INIT, GET, SET, LSHIFT and RSHIFT. -/
def immClear (w : CommandWord) : Bool := immOf w == 0#32

/-- Decode of R53 to R55: one of the thirteen commands with its operands, or why the word is none. It reads no state.
R56, the bank range, needs NBANKS: every meaning checks it first. DESIGN CHOICE, safe (log 8). -/
def decode (w : CommandWord) : Except Reject Instr :=
  if zOf w ≠ 0#15 then .error .reservedBits
  else
    match (opOf w).toNat with
    | 1 => whenClear (rsClear w && bClear w) (.init (rdOf w) (immOf w))
    | 2 => whenClear (rsClear w && bClear w) (.get (rdOf w) (immOf w))
    | 3 => whenClear (rsClear w) (.set (rdOf w) (immOf w) (bOf w))
    | 4 => whenClear (bClear w && immClear w) (.and (rdOf w) (rsOf w))
    | 5 => whenClear (bClear w && immClear w) (.or (rdOf w) (rsOf w))
    | 6 => whenClear (bClear w && immClear w) (.xor (rdOf w) (rsOf w))
    | 7 => whenClear (rsClear w && bClear w && immClear w) (.not (rdOf w))
    | 8 => whenClear (rsClear w && bClear w) (.lshift (rdOf w) (immOf w))
    | 9 => whenClear (rsClear w && bClear w) (.rshift (rdOf w) (immOf w))
    | 10 => whenClear (bClear w && immClear w) (.copy (rdOf w) (rsOf w))
    | 11 => whenClear (rsClear w && immClear w) (.fill (rdOf w) (bOf w))
    | 12 => whenClear (rsClear w && bClear w && immClear w) (.bytes (rdOf w))
    | 13 => whenClear (rsClear w && bClear w && immClear w) (.iter (rdOf w))
    | _ => .error .reservedOpcode

/-- The command word of `nbits` bits whose number is `w`: bit 0 is the least significant bit of the one 64-bit word, bits
above `nbits` are zero. DEDUCED, safe (log 14). -/
def tableWord (nbits w : Nat) : CommandWord := BitVec.ofNat 64 (w % 2 ^ nbits)

/-- The instruction the decoder reads from an instruction whose bits are `w`, numbered as the opcode table numbers them. -/
def decodeTableWord (nbits w : Nat) : Option Instr :=
  match decode (tableWord nbits w) with
  | .ok i => some i
  | .error _ => none

/-! The encoder, from the same tables. -/

/-- `OP ‖ RD ‖ RS ‖ Z ‖ B ‖ IMM` with `Z` zero (R50, R55). -/
def assembleFields (op : BitVec 8) (rd rs : BankNumber) (b : Bool) (imm : Immediate) : CommandWord :=
  op ++ rd ++ rs ++ 0#15 ++ BitVec.ofBool b ++ imm

/-- The opcode of a command (R52). -/
def opcode : Mnemonic → BitVec 8
  | .INIT => 0x01
  | .GET => 0x02
  | .SET => 0x03
  | .AND => 0x04
  | .OR => 0x05
  | .XOR => 0x06
  | .NOT => 0x07
  | .LSHIFT => 0x08
  | .RSHIFT => 0x09
  | .COPY => 0x0A
  | .FILL => 0x0B
  | .BYTES => 0x0C
  | .ITER => 0x0D

/-- The one word of a command: unused fields zero (R54, R57). -/
def encode (i : Instr) : CommandWord :=
  match i with
  | .init rd cap => assembleFields (opcode .INIT) rd 0 false cap
  | .get rd idx => assembleFields (opcode .GET) rd 0 false idx
  | .set rd idx bit => assembleFields (opcode .SET) rd 0 bit idx
  | .and rd rs => assembleFields (opcode .AND) rd rs false 0
  | .or rd rs => assembleFields (opcode .OR) rd rs false 0
  | .xor rd rs => assembleFields (opcode .XOR) rd rs false 0
  | .not rd => assembleFields (opcode .NOT) rd 0 false 0
  | .lshift rd num => assembleFields (opcode .LSHIFT) rd 0 false num
  | .rshift rd num => assembleFields (opcode .RSHIFT) rd 0 false num
  | .copy rd rs => assembleFields (opcode .COPY) rd rs false 0
  | .fill rd bit => assembleFields (opcode .FILL) rd 0 bit 0
  | .bytes rd => assembleFields (opcode .BYTES) rd 0 false 0
  | .iter rd => assembleFields (opcode .ITER) rd 0 false 0

/-! The mask and match columns of the opcode map (R52), written out beside the decoder so that the two can be compared. -/

/-- A word is the row's command when `word & mask` is the row's match value (R52), up to the bank range (R56). -/
structure OpcodeRow where
  mnemonic : Mnemonic
  mask : CommandWord
  value : CommandWord
deriving DecidableEq, Repr

/-- The thirteen rows of R52. -/
def opcodeMap : List OpcodeRow :=
  [ ⟨.INIT, 0xFF0FFFFF00000000, 0x0100000000000000⟩,
    ⟨.GET, 0xFF0FFFFF00000000, 0x0200000000000000⟩,
    ⟨.SET, 0xFF0FFFFE00000000, 0x0300000000000000⟩,
    ⟨.AND, 0xFF00FFFFFFFFFFFF, 0x0400000000000000⟩,
    ⟨.OR, 0xFF00FFFFFFFFFFFF, 0x0500000000000000⟩,
    ⟨.XOR, 0xFF00FFFFFFFFFFFF, 0x0600000000000000⟩,
    ⟨.NOT, 0xFF0FFFFFFFFFFFFF, 0x0700000000000000⟩,
    ⟨.LSHIFT, 0xFF0FFFFF00000000, 0x0800000000000000⟩,
    ⟨.RSHIFT, 0xFF0FFFFF00000000, 0x0900000000000000⟩,
    ⟨.COPY, 0xFF00FFFFFFFFFFFF, 0x0A00000000000000⟩,
    ⟨.FILL, 0xFF0FFFFEFFFFFFFF, 0x0B00000000000000⟩,
    ⟨.BYTES, 0xFF0FFFFFFFFFFFFF, 0x0C00000000000000⟩,
    ⟨.ITER, 0xFF0FFFFFFFFFFFFF, 0x0D00000000000000⟩ ]

/-- `word & mask = match` (R52). -/
def OpcodeRow.accepts (r : OpcodeRow) (w : CommandWord) : Bool := (w &&& r.mask) == r.value

end Sys2Proof
end

