-- ==== Sys2Proof/Machine/HostPort.lean ====
section
/-! DEFINITION. What the ports and the host do around a command: offering, taking, handing over, waiting, reset (R4, R62,
R120 to R126). -/

namespace Sys2Proof.Machine

/-- The host offers command words, after those already offered (R4). -/
def State.offer (s : State) (ws : List CommandWord) : State :=
  { s with ports := { s.ports with cmd := s.ports.cmd ++ ws } }

/-- The transfers offered and not yet taken, oldest first. -/
def State.owed (s : State) : List Transfer := s.ports.sent.drop s.ports.delivered

/-- The engine still has something to hand over, and so takes no command (R62). -/
def State.waiting (s : State) : Bool := decide (s.ports.delivered < s.ports.sent.length)

/-- The host takes everything that is offered (R126). -/
def State.handOver (s : State) : State := { s with ports := { s.ports with delivered := s.ports.sent.length } }

/-- The host takes the one oldest transfer that is offered; none if nothing is. Stream bits of a command so come before
its completion record (R61). -/
def State.takeTransfer (s : State) : Option (Transfer × State) :=
  match s.owed with
  | [] => none
  | x :: _ => some (x, { s with ports := { s.ports with delivered := s.ports.delivered + 1 } })

/-- The host's turn before a step: it takes what is offered, if it does its duty (R126). DESIGN CHOICE, unsafe (log 5). -/
def Ports.hostTurn (p : Ports) : Ports := if p.hostTakes then { p with delivered := p.sent.length } else p

/-- The host's turn before a step; it touches the ports only. -/
def State.hostTurn (s : State) : State := { s with ports := s.ports.hostTurn }

/-- The engine takes the oldest offered word, `rest` remaining: the count of R62 goes up by one. -/
def State.takeCommand (s : State) (rest : List CommandWord) : State :=
  { s with ports := { s.ports with cmd := rest, taken := s.ports.taken + 1 } }

/-- The host asserts the reset input (R120). -/
def State.pressReset (s : State) : State := { s with ports := { s.ports with resetIn := true } }

/-- What asserting reset does: the reset state of R121; what was offered on CMD and not taken is not executed and what was
not handed over is never delivered (R122). Whether the host takes is the host's, and stays. DESIGN CHOICE, unsafe (log 7): the
step that sees the input asserted also releases it. -/
def State.afterReset (s : State) : State :=
  { State.resetOf s.inst with ports := { Ports.reset with hostTakes := s.ports.hostTakes } }

/-- A word that decode refuses raises IllegalCommand (R53 to R55, R103). -/
def runWord (exec : Instr → State → Result) (w : CommandWord) (s : State) : Result :=
  match decode w with
  | .ok i => exec i s
  | .error _ => s.raise .illegalCommand

/-- Between two commands: wait while something is not handed over (R126), idle while no word is offered (R112), else take
the oldest word and run it. Reset comes before everything (R120). DEDUCED, safe (log 6): waiting and idling are
next states. -/
def advance (exec : Instr → State → Result) (s : State) : Result :=
  if s.ports.resetIn then .next s.afterReset
  else if s.hostTurn.waiting then .next s.hostTurn
  else
    match s.hostTurn.ports.cmd with
    | [] => .next s.hostTurn
    | w :: rest => runWord exec w (s.hostTurn.takeCommand rest)

/-- `w` offered so that the next step takes it: reset not asserted, everything handed over, `w` the oldest word. -/
def State.offerNext (s : State) (w : CommandWord) : State :=
  { s with ports := { s.ports with resetIn := false, cmd := w :: s.ports.cmd, delivered := s.ports.sent.length } }

end Sys2Proof.Machine
end

