-- ==== Sys2Proof/Machine/Step.lean ====
section
/-! DEFINITION. One step: one command, or reset, or holding the state (R42, R120, R126, R112). -/

namespace Sys2Proof.Machine

/-- One step of the engine. -/
def step (s : State) : Host.Outcome State Fault Refusal := advance exec s

/-- `s` with the instruction `w` of the opcode table's numbering offered on the command port, so that the next step runs
it. -/
def State.withFetchWord (s : State) (nbits w : Nat) : State := s.offerNext (tableWord nbits w)

end Sys2Proof.Machine
end

