-- ==== Sys2Proof/Machine/Assembly.lean ====
section
/-! DEFINITION. The assembly syntax of R64: one command a line, from text to a command and back. It is the host's notation;
the engine sees only the words. DESIGN CHOICE, safe (log 15): blanks, letter case and digits. -/

namespace Sys2Proof.Machine

/-- An operand as written: `b<n>`, or a number (R64). -/
inductive AsmOperand where
  | bank (n : Nat)
  | number (n : Nat)
deriving DecidableEq, Repr

/-- One line: a mnemonic and its operands (R64). -/
structure AsmLine where
  mnemonic : Mnemonic
  operands : List AsmOperand
deriving DecidableEq, Repr

/-- A bank number; the assembler refuses one above 15 (R64). NBANKS is the engine's check (R56). -/
def asmBank (n : Nat) : Option BankNumber := if n ≤ 15 then some (BitVec.ofNat 4 n) else none

/-- An index, count or capacity; the assembler refuses one above `2^32 - 1` (R64). -/
def asmNumber (n : Nat) : Option Immediate := if n ≤ 2 ^ 32 - 1 then some (BitVec.ofNat 32 n) else none

/-- A bit; the assembler refuses one that is neither 0 nor 1 (R64). -/
def asmBit : Nat → Option Bool
  | 0 => some false
  | 1 => some true
  | _ => none

/-- The command of a form `bD, number`. -/
def asmBankNumber (c : BankNumber → Immediate → Instr) (d n : Nat) : Option Instr :=
  match asmBank d, asmNumber n with
  | some rd, some imm => some (c rd imm)
  | _, _ => none

/-- The command of a form `bD, bS`. -/
def asmBankBank (c : BankNumber → BankNumber → Instr) (d n : Nat) : Option Instr :=
  match asmBank d, asmBank n with
  | some rd, some rs => some (c rd rs)
  | _, _ => none

/-- The command of the form `bD, bit`. -/
def asmBankBit (c : BankNumber → Bool → Instr) (d n : Nat) : Option Instr :=
  match asmBank d, asmBit n with
  | some rd, some bit => some (c rd bit)
  | _, _ => none

/-- The command of the form `bD, number, bit`. -/
def asmBankNumberBit (c : BankNumber → Immediate → Bool → Instr) (d n v : Nat) : Option Instr :=
  match asmBank d, asmNumber n, asmBit v with
  | some rd, some imm, some bit => some (c rd imm bit)
  | _, _, _ => none

/-- The thirteen syntaxes of R64, the destination or receiver first; any other line is refused. -/
def assemble (l : AsmLine) : Option Instr :=
  match l.mnemonic, l.operands with
  | .INIT, [.bank d, .number n] => asmBankNumber .init d n
  | .GET, [.bank d, .number n] => asmBankNumber .get d n
  | .SET, [.bank d, .number n, .number v] => asmBankNumberBit .set d n v
  | .AND, [.bank d, .bank n] => asmBankBank .and d n
  | .OR, [.bank d, .bank n] => asmBankBank .or d n
  | .XOR, [.bank d, .bank n] => asmBankBank .xor d n
  | .NOT, [.bank d] => (asmBank d).map .not
  | .LSHIFT, [.bank d, .number n] => asmBankNumber .lshift d n
  | .RSHIFT, [.bank d, .number n] => asmBankNumber .rshift d n
  | .COPY, [.bank d, .bank n] => asmBankBank .copy d n
  | .FILL, [.bank d, .number v] => asmBankBit .fill d v
  | .BYTES, [.bank d] => (asmBank d).map .bytes
  | .ITER, [.bank d] => (asmBank d).map .iter
  | _, _ => none

/-- The line of a command (R64). -/
def disassemble : Instr → AsmLine
  | .init rd cap => ⟨.INIT, [.bank rd.toNat, .number cap.toNat]⟩
  | .get rd idx => ⟨.GET, [.bank rd.toNat, .number idx.toNat]⟩
  | .set rd idx bit => ⟨.SET, [.bank rd.toNat, .number idx.toNat, .number bit.toNat]⟩
  | .and rd rs => ⟨.AND, [.bank rd.toNat, .bank rs.toNat]⟩
  | .or rd rs => ⟨.OR, [.bank rd.toNat, .bank rs.toNat]⟩
  | .xor rd rs => ⟨.XOR, [.bank rd.toNat, .bank rs.toNat]⟩
  | .not rd => ⟨.NOT, [.bank rd.toNat]⟩
  | .lshift rd num => ⟨.LSHIFT, [.bank rd.toNat, .number num.toNat]⟩
  | .rshift rd num => ⟨.RSHIFT, [.bank rd.toNat, .number num.toNat]⟩
  | .copy rd rs => ⟨.COPY, [.bank rd.toNat, .bank rs.toNat]⟩
  | .fill rd bit => ⟨.FILL, [.bank rd.toNat, .number bit.toNat]⟩
  | .bytes rd => ⟨.BYTES, [.bank rd.toNat]⟩
  | .iter rd => ⟨.ITER, [.bank rd.toNat]⟩

/-! From text. -/

/-- A blank or a tab. -/
def isBlank (c : Char) : Bool := c == ' ' || c == '\t'

/-- The text without blanks at either end. -/
def trimBlanks (cs : List Char) : List Char :=
  (((cs.dropWhile isBlank).reverse).dropWhile isBlank).reverse

/-- The parts of a text between commas (R64). -/
def splitCommas : List Char → List (List Char)
  | [] => [[]]
  | c :: cs =>
    if c == ',' then [] :: splitCommas cs
    else
      match splitCommas cs with
      | [] => [[c]]
      | p :: ps => (c :: p) :: ps

/-- The value of a digit, letters standing for 10 to 15. -/
def digitValue (c : Char) : Option Nat :=
  if '0'.toNat ≤ c.toNat ∧ c.toNat ≤ '9'.toNat then some (c.toNat - '0'.toNat)
  else if 'a'.toNat ≤ c.toNat ∧ c.toNat ≤ 'f'.toNat then some (c.toNat - 'a'.toNat + 10)
  else if 'A'.toNat ≤ c.toNat ∧ c.toNat ≤ 'F'.toNat then some (c.toNat - 'A'.toNat + 10)
  else none

/-- The digits `cs` in base `base`, read after the number `acc`. -/
def digitsFrom (base acc : Nat) : List Char → Option Nat
  | [] => some acc
  | c :: cs =>
    match digitValue c with
    | some d => if d < base then digitsFrom base (acc * base + d) cs else none
    | none => none

/-- A number in decimal, or hexadecimal after `0x` (R64). -/
def readNumber : List Char → Option Nat
  | [] => none
  | ['0', 'x'] => none
  | '0' :: 'x' :: cs => digitsFrom 16 0 cs
  | cs => digitsFrom 10 0 cs

/-- A bank `b<n>` in decimal, or a number (R64). -/
def readOperand : List Char → Option AsmOperand
  | ['b'] => none
  | 'b' :: cs => (digitsFrom 10 0 cs).map .bank
  | cs => (readNumber cs).map .number

/-- All the operands, none if one cannot be read. -/
def readOperands : List (List Char) → Option (List AsmOperand)
  | [] => some []
  | p :: ps =>
    match readOperand (trimBlanks p), readOperands ps with
    | some o, some os => some (o :: os)
    | _, _ => none

/-- The mnemonics in the order of the opcode map. -/
def allMnemonics : List Mnemonic :=
  [.INIT, .GET, .SET, .AND, .OR, .XOR, .NOT, .LSHIFT, .RSHIFT, .COPY, .FILL, .BYTES, .ITER]

/-- The mnemonic a text spells. -/
def readMnemonic (cs : List Char) : Option Mnemonic := allMnemonics.find? fun m => m.name.toList == cs

/-- One line of assembly: a mnemonic, blanks, operands separated by commas; `;` starts a comment (R64). -/
def readLine (cs : List Char) : Option AsmLine :=
  let body := trimBlanks (cs.takeWhile fun c => c != ';')
  match readMnemonic (body.takeWhile fun c => !isBlank c), readOperands (splitCommas (body.dropWhile fun c => !isBlank c)) with
  | some m, some os => some ⟨m, os⟩
  | _, _ => none

/-- The command word of one line of assembly (R64, R65). -/
def assembleText (line : String) : Option CommandWord :=
  match readLine line.toList with
  | some l => (assemble l).map encode
  | none => none

end Sys2Proof.Machine
end

