-- ==== Sys2Proof/Safety.lean ====
section
/-! DEFINITION. The terms claims are made in: the invariant of the state, what a command left alone, what it answered, and
runs. -/

namespace Sys2Proof.Machine

/-! The invariant. -/

/-- The state invariant of R14: legal parameters (R5 to R7), NBANKS banks, each with `WC(b)` words and no more than
MAXWORDS. -/
def State.wf (s : State) : Bool := s.inst.legal && Memory.wf s.inst.nbanks s.inst.maxWords s.mem

/-- The completion records among some transfers, in order. -/
def completionsOf : List Transfer → List CompletionRecord
  | [] => []
  | .stream _ :: ts => completionsOf ts
  | .completion r :: ts => r :: completionsOf ts

/-- The stream bits among some transfers, in order. -/
def streamBitsOf : List Transfer → List Bool
  | [] => []
  | .stream v :: ts => v :: streamBitsOf ts
  | .completion _ :: ts => streamBitsOf ts

/-- The ports' invariant: the host has taken no more than was offered; one completion record for every word taken; and at
most one record is not handed over yet (R62). -/
def Ports.wf (p : Ports) : Bool :=
  decide (p.delivered ≤ p.sent.length) && decide ((completionsOf p.sent).length = p.taken) &&
    decide ((completionsOf (p.sent.drop p.delivered)).length ≤ 1)

/-- The invariant every step keeps. -/
def State.inv (s : State) : Bool := s.wf && s.ports.wf

/-! What a command leaves alone, and what it answers. -/

/-- Every bank holds the same store in `s` and in `t`, padding included. -/
def SameStores (s t : State) : Prop := t.inst = s.inst ∧ ∀ b, t.cap b = s.cap b ∧ t.wordVals b = s.wordVals b

/-- Every bank but `rd` holds the same store in `s` and in `t`, padding included (R17). -/
def SameOtherStores (rd : BankNumber) (s t : State) : Prop :=
  t.inst = s.inst ∧ t.mem.length = s.mem.length ∧
    ∀ b, b ≠ rd.toNat → t.cap b = s.cap b ∧ t.wordVals b = s.wordVals b

/-- From `s` to `t` the engine sent `bits` on STR, then one completion record with status `st` and DATA `data` on CPL, and
nothing else happened on the ports (R58, R61). -/
def Answers (s t : State) (bits : List Bool) (st : StatusCode) (data : Immediate) : Prop :=
  t.ports = { s.ports with sent := s.ports.sent ++ bits.map Transfer.stream ++ [.completion (st ++ 0#24 ++ data)] }

/-- The engine takes the next offered word at its next step: reset is not asserted, and everything is handed over or the
host takes it (R62, R120, R126). -/
def State.ready (s : State) : Bool := !s.ports.resetIn && !s.hostTurn.waiting

/-! Commands one after another. -/

/-- The state after a command; the state itself where a command would stop. -/
def after (i : Instr) (s : State) : State :=
  match exec i s with
  | .next t => t
  | .fault _ => s
  | .refused _ => s

/-- What a command sends, in order (R42). -/
def reply (i : Instr) (s : State) : List Transfer := (after i s).ports.sent.drop s.ports.sent.length

/-- The status of a reply: that of its last completion record. -/
def replyStatus (ts : List Transfer) : Option StatusCode := (completionsOf ts).getLast?.map statusOf

/-- The replies to a list of commands issued one after another. -/
def replies : List Instr → State → List (List Transfer)
  | [], _ => []
  | i :: is, s => reply i s :: replies is (after i s)

/-- The state after a command word, legal or not. -/
def wordAfter (w : CommandWord) (s : State) : State :=
  match runWord exec w s with
  | .next t => t
  | .fault _ => s
  | .refused _ => s

/-- The replies to a list of command words issued one after another, in order. -/
def wordReplies : List CommandWord → State → List (List Transfer)
  | [], _ => []
  | w :: ws, s => (wordAfter w s).ports.sent.drop s.ports.sent.length :: wordReplies ws (wordAfter w s)

/-- A command that shifts. -/
def isShift (i : Instr) : Bool := i.mnemonic == .LSHIFT || i.mnemonic == .RSHIFT

/-- The two states hold the same logical stores: as many banks, equal capacities, and equal bits in every slot that both
have (R81). -/
def SameLogical (s t : State) : Prop :=
  s.inst.nbanks = t.inst.nbanks ∧
    ∀ b, s.cap b = t.cap b ∧ ∀ i, i < s.wc b * s.W → i < t.wc b * t.W → s.slot b i = t.slot b i

/-- GET and ITER, the commands that show logical bits (R81). -/
def showsBits (i : Instr) : Bool := i.mnemonic == .GET || i.mnemonic == .ITER

end Sys2Proof.Machine
end

