-- ==== Sys2Proof/Certificates/Slice0/Obligations.lean ====
section
/-! DEFINITION. What is stated of the engine, for the provers. Each statement names the rule of spec/ it formalises. -/

open Sys2Proof Sys2Proof.Machine

/-! Encoding. -/

/-- R57: a word is a command of format C exactly when it is that command's one word; decode and encode agree both ways. -/
def Obligations.DecodeIsInverseOfEncode : Prop :=
  ∀ (w : CommandWord) (i : Instr), decode w = .ok i ↔ w = encode i

/-- R52: the decoder gives a row's mnemonic exactly to the words that the row's mask and match accept. -/
def Obligations.DecodeAgreesWithMaskAndMatch : Prop :=
  ∀ (w : CommandWord) (r : OpcodeRow), r ∈ opcodeMap →
    (w &&& r.mask = r.value ↔ ∃ i, decode w = .ok i ∧ i.mnemonic = r.mnemonic)

/-- R50, R63: the word of a command is `OP ‖ RD ‖ RS ‖ Z ‖ B ‖ IMM`, bit 63 the most significant, Z zero. -/
def Obligations.EncodedWordHoldsItsFields : Prop :=
  ∀ i : Instr, (encode i).toNat = (opcode i.mnemonic).toNat * 2 ^ 56 + i.rd.toNat * 2 ^ 52 + i.rs.toNat * 2 ^ 48 +
    i.bit.toNat * 2 ^ 32 + i.imm.toNat

/-- 95_test_vectors.md 2.1: some words, written out there from the encoding, and the commands they are. -/
def Obligations.SampleWordsDecode : Prop :=
  decodeTableWord 64 0x0130000000000080 = some (.init 3 128) ∧
  decodeTableWord 64 0x0320000100000027 = some (.set 2 39 true) ∧
  decodeTableWord 64 0x0401000000000000 = some (.and 0 1) ∧
  decodeTableWord 64 0x08000000FFFFFFFF = some (.lshift 0 4294967295) ∧
  decodeTableWord 64 0x0A20000000000000 = some (.copy 2 0) ∧
  decodeTableWord 64 0x0D10000000000000 = some (.iter 1) ∧
  decodeTableWord 64 0x0300000300000000 = none

/-- R64: the assembler reads back the line of every command. -/
def Obligations.AssemblerReadsBackEveryCommand : Prop :=
  ∀ i : Instr, assemble (disassemble i) = some i

/-! The step. How the ports stand in the state is the model's (log 4), and so is that a step begins with the host's turn, in
which a host that takes takes all that is offered (`State.hostTurn`, log 5); `State.ready` says that after it nothing is
left to hand over and reset is not asserted. -/

/-- R42, R62: a step at a ready state takes the oldest offered word and runs the command it decodes to, on the state in
which the host has had its turn and the word is taken. -/
def Obligations.StepRunsDecodedCommand : Prop :=
  ∀ (s : State) (w : CommandWord) (rest : List CommandWord) (i : Instr),
    s.ready = true → s.ports.cmd = w :: rest → decode w = .ok i →
    step s = exec i (s.hostTurn.takeCommand rest)

/-- R53: a word whose opcode is 0x00 or 0x0E to 0xFF raises IllegalCommand. -/
def Obligations.ReservedOpcodeRaisesIllegalCommand : Prop :=
  ∀ (s : State) (w : CommandWord) (rest : List CommandWord),
    s.ready = true → s.ports.cmd = w :: rest → (w.toNat / 2 ^ 56 = 0 ∨ 0x0E ≤ w.toNat / 2 ^ 56) →
    ∃ t, step s = .next t ∧ SameStores s t ∧ Answers (s.hostTurn.takeCommand rest) t [] 0x03 0

/-- R54: RS must be 0 except in AND, OR, XOR, COPY; B except in SET, FILL; IMM except in INIT, GET, SET, LSHIFT, RSHIFT. -/
def Obligations.UnusedFieldRaisesIllegalCommand : Prop :=
  ∀ (s : State) (w : CommandWord) (rest : List CommandWord),
    s.ready = true → s.ports.cmd = w :: rest →
    ((w.toNat / 2 ^ 48 % 16 ≠ 0 ∧ w.toNat / 2 ^ 56 ∉ [0x04, 0x05, 0x06, 0x0A]) ∨
      (w.toNat / 2 ^ 32 % 2 ≠ 0 ∧ w.toNat / 2 ^ 56 ∉ [0x03, 0x0B]) ∨
      (w.toNat % 2 ^ 32 ≠ 0 ∧ w.toNat / 2 ^ 56 ∉ [0x01, 0x02, 0x03, 0x08, 0x09])) →
    ∃ t, step s = .next t ∧ SameStores s t ∧ Answers (s.hostTurn.takeCommand rest) t [] 0x03 0

/-- R55: field Z, bits 47:33, must be zero in every command. -/
def Obligations.ReservedBitsRaiseIllegalCommand : Prop :=
  ∀ (s : State) (w : CommandWord) (rest : List CommandWord),
    s.ready = true → s.ports.cmd = w :: rest → w.toNat / 2 ^ 33 % 2 ^ 15 ≠ 0 →
    ∃ t, step s = .next t ∧ SameStores s t ∧ Answers (s.hostTurn.takeCommand rest) t [] 0x03 0

/-- R56: a bank number that is not below NBANKS, in RD of any command or in RS of AND, OR, XOR or COPY. -/
def Obligations.AbsentBankRaisesIllegalCommand : Prop :=
  ∀ (s : State) (i : Instr),
    (s.inst.nbanks ≤ i.rd.toNat ∨ (i.mnemonic ∈ [.AND, .OR, .XOR, .COPY] ∧ s.inst.nbanks ≤ i.rs.toNat)) →
    ∃ t, exec i s = .next t ∧ SameStores s t ∧ Answers s t [] 0x03 0

/-- R103: IllegalCommand is raised exactly for the words that are no legal command, and it depends on the word and on
NBANKS only. -/
def Obligations.IllegalCommandExactlyForIllegalWords : Prop :=
  ∀ (s : State) (w : CommandWord) (rest : List CommandWord),
    s.ready = true → s.ports.cmd = w :: rest →
    ∃ t bits st data, step s = .next t ∧ Answers (s.hostTurn.takeCommand rest) t bits st data ∧
      (st = 0x03 ↔ ¬ ∃ i : Instr, i.wellFormed s.inst.nbanks = true ∧ w = encode i)

/-- R58: one completion record for every command word taken, legal or not; and, R61, stream bits only from ITER. -/
def Obligations.OneCompletionForEveryWord : Prop :=
  ∀ (s : State) (w : CommandWord) (rest : List CommandWord),
    s.ready = true → s.ports.cmd = w :: rest →
    ∃ t bits st data, step s = .next t ∧ Answers (s.hostTurn.takeCommand rest) t bits st data ∧
      (bits ≠ [] → ∃ rd, decode w = .ok (.iter rd))

/-- R112: an engine with no command offered holds its state. (That such a step is a next state is the model's: log 6.) -/
def Obligations.IdleEngineHoldsItsState : Prop :=
  ∀ s : State, s.ready = true → s.ports.cmd = [] →
    ∃ t, step s = .next t ∧ SameStores s t ∧ t.ports.sent = s.ports.sent ∧ t.ports.cmd = [] ∧
      t.ports.taken = s.ports.taken

/-- R126: while the host does not take what is offered, the engine holds its state and takes no command. (The field that says
whether the host takes, and that waiting is a next state equal to this one, are the model's: log 5, log 6.) -/
def Obligations.EngineWaitsForTheHost : Prop :=
  ∀ s : State, s.ports.resetIn = false → s.ports.hostTakes = false → s.ports.delivered < s.ports.sent.length →
    step s = .next s

/-- R120 to R122: reset, whatever the state, leaves every bank unconstructed, nothing offered in either direction, the count
at zero. (The host's taking, the model's own field, is not the engine's and stays: log 5.) -/
def Obligations.ResetInputEntersResetState : Prop :=
  ∀ s : State, s.ports.resetIn = true →
    ∃ t, step s = .next t ∧ t.inst = s.inst ∧ t.mem.length = s.inst.nbanks ∧
      (∀ b, t.cap b = 0 ∧ t.wordVals b = []) ∧
      t.ports.resetIn = false ∧ t.ports.cmd = [] ∧ t.ports.taken = 0 ∧ t.ports.sent = [] ∧ t.ports.delivered = 0

/-- R61, R42: the host takes the transfers in the order they were sent, one at a time, and taking one changes no store. (The
one list of transfers is the model's: log 4.) -/
def Obligations.HostTakesTransfersInOrder : Prop :=
  ∀ (s t : State) (x : Transfer), s.takeTransfer = some (x, t) →
    s.owed = x :: t.owed ∧ SameStores s t ∧ t.ports.sent = s.ports.sent ∧ t.ports.cmd = s.ports.cmd

/-! Reset and the invariant. -/

/-- R23, R121: after reset every capacity is 0 and no word exists, in every engine. -/
def Obligations.ResetLeavesEveryBankUnconstructed : Prop :=
  ∀ (p : Instance) (b : Nat), (State.resetOf p).cap b = 0 ∧ (State.resetOf p).wc b = 0 ∧ (State.resetOf p).wordVals b = []

/-- R14: the invariant is true after reset, of every legal engine and of the one of `State.reset` (whose parameters are the
model's choice: log 2). -/
def Obligations.ResetMeetsTheInvariant : Prop :=
  State.reset.inv = true ∧ ∀ p : Instance, p.legal = true → (State.resetOf p).inv = true

/-- R14 with R62: every step keeps the invariant: legal parameters, `WC(b)` words in every bank, no more than MAXWORDS, one
completion record for every word taken and at most one of them not handed over. -/
def Obligations.EveryStepKeepsTheInvariant : Prop :=
  ∀ s t : State, s.inv = true → step s = .next t → t.inv = true

/-! Construction and indexed access. -/

/-- R80: INIT makes an all-zero store, or raises CapacityRange and changes nothing. -/
def Obligations.InitConstructsAnAllZeroStore : Prop :=
  ∀ (s : State) (rd : BankNumber) (cap : Immediate), s.wf = true → rd.toNat < s.inst.nbanks →
    ∃ t, exec (.init rd cap) s = .next t ∧
      if cap.toNat = 0 ∨ s.inst.maxWords < (cap.toNat + s.W - 1) / s.W then
        SameStores s t ∧ Answers s t [] 0x04 0
      else
        SameOtherStores rd s t ∧ t.cap rd.toNat = cap ∧
          t.wordVals rd.toNat = List.replicate ((cap.toNat + s.W - 1) / s.W) 0 ∧
          Answers s t [] 0x00 (rd.setWidth 32)

/-- R80, after it: every GET below the capacity returns 0, BYTES the backing size, ITER that many zeros. -/
def Obligations.FreshStoreReadsAllZero : Prop :=
  ∀ (s : State) (rd : BankNumber) (cap : Immediate), s.wf = true → rd.toNat < s.inst.nbanks → cap.toNat ≠ 0 →
    (cap.toNat + s.W - 1) / s.W ≤ s.inst.maxWords →
    (∀ idx : Immediate, idx.toNat < cap.toNat →
      reply (.get rd idx) (after (.init rd cap) s) = [.completion 0]) ∧
    reply (.bytes rd) (after (.init rd cap) s) =
      [.completion (BitVec.ofNat 64 ((cap.toNat + s.W - 1) / s.W * (s.W / 8)))] ∧
    reply (.iter rd) (after (.init rd cap) s) =
      List.replicate cap.toNat (.stream false) ++ [.completion (BitVec.ofNat 64 cap.toNat)]

/-- R83: GET returns logical bit `idx`, bit position `W - 1 - (idx mod W)` of word `idx div W`, or raises IndexOutOfRange;
no store changes. -/
def Obligations.GetReturnsTheLogicalBit : Prop :=
  ∀ (s : State) (rd : BankNumber) (idx : Immediate), s.wf = true → rd.toNat < s.inst.nbanks →
    ∃ t, exec (.get rd idx) s = .next t ∧ SameStores s t ∧
      if (s.cap rd.toNat).toNat ≤ idx.toNat then Answers s t [] 0x01 0
      else
        Answers s t [] 0x00
          (if (s.wordVal rd.toNat (idx.toNat / s.W)).testBit (s.W - 1 - idx.toNat % s.W) then 1 else 0)

/-- R84: SET makes logical bit `idx` equal to `bit` and changes no other bit of any word, padding included, or raises
IndexOutOfRange and changes nothing. -/
def Obligations.SetWritesOnlyTheLogicalBit : Prop :=
  ∀ (s : State) (rd : BankNumber) (idx : Immediate) (bit : Bool), s.wf = true → rd.toNat < s.inst.nbanks →
    ∃ t, exec (.set rd idx bit) s = .next t ∧
      if (s.cap rd.toNat).toNat ≤ idx.toNat then SameStores s t ∧ Answers s t [] 0x01 0
      else
        SameOtherStores rd s t ∧ t.cap rd.toNat = s.cap rd.toNat ∧
          (t.wordVals rd.toNat).length = (s.wordVals rd.toNat).length ∧
          t.slot rd.toNat idx.toNat = bit ∧ (∀ j, j ≠ idx.toNat → t.slot rd.toNat j = s.slot rd.toNat j) ∧
          Answers s t [] 0x00 0

/-- R85: a GET after a successful SET of the same index returns the bit, any other GET what it returned before; other banks
and the padding bits are unchanged. -/
def Obligations.GetAfterSetReturnsTheBit : Prop :=
  ∀ (s : State) (rd : BankNumber) (idx : Immediate) (bit : Bool), s.wf = true → rd.toNat < s.inst.nbanks →
    idx.toNat < (s.cap rd.toNat).toNat →
    reply (.get rd idx) (after (.set rd idx bit) s) = [.completion (if bit then 1 else 0)] ∧
    (∀ (b : BankNumber) (j : Immediate), b ≠ rd ∨ j ≠ idx →
      reply (.get b j) (after (.set rd idx bit) s) = reply (.get b j) s) ∧
    SameOtherStores rd s (after (.set rd idx bit) s) ∧
    ∀ j, (s.cap rd.toNat).toNat ≤ j → (after (.set rd idx bit) s).slot rd.toNat j = s.slot rd.toNat j

/-- R31: an indexed access is refused exactly from the capacity in bits on, padding slots included; below it the word
always exists. -/
def Obligations.BoundsCheckIsOnTheCapacityInBits : Prop :=
  ∀ (s : State) (rd : BankNumber) (idx : Immediate), s.wf = true → rd.toNat < s.inst.nbanks →
    (replyStatus (reply (.get rd idx) s) = some 0x01 ↔ (s.cap rd.toNat).toNat ≤ idx.toNat) ∧
    (∀ bit, replyStatus (reply (.set rd idx bit) s) = some 0x01 ↔ (s.cap rd.toNat).toNat ≤ idx.toNat) ∧
    (idx.toNat < (s.cap rd.toNat).toNat → idx.toNat / s.W < s.wc rd.toNat)

/-- R32, R33: slot `i` of a bank is bit position `W - 1 - (i mod W)` of word `i div W`. -/
def Obligations.SlotIsMostSignificantBitFirst : Prop :=
  ∀ (s : State) (b i : Nat), s.slot b i = (s.wordVal b (i / s.W)).testBit (s.W - 1 - i % s.W)

/-! Bulk boolean operators. -/

/-- R87: AND, word by word over the whole receiver, or SizeMismatch and nothing changes. -/
def Obligations.AndCombinesEveryWord : Prop :=
  ∀ (s : State) (rd rs : BankNumber), s.wf = true → rd.toNat < s.inst.nbanks → rs.toNat < s.inst.nbanks →
    ∃ t, exec (.and rd rs) s = .next t ∧
      if s.wc rd.toNat = s.wc rs.toNat then
        SameOtherStores rd s t ∧ t.cap rd.toNat = s.cap rd.toNat ∧
          (t.wordVals rd.toNat).length = s.wc rd.toNat ∧
          (∀ k, k < s.wc rd.toNat → t.wordVal rd.toNat k = s.wordVal rd.toNat k &&& s.wordVal rs.toNat k) ∧
          Answers s t [] 0x00 (rd.setWidth 32)
      else SameStores s t ∧ Answers s t [] 0x02 0

/-- R88: OR, word by word over the whole receiver, or SizeMismatch and nothing changes. -/
def Obligations.OrCombinesEveryWord : Prop :=
  ∀ (s : State) (rd rs : BankNumber), s.wf = true → rd.toNat < s.inst.nbanks → rs.toNat < s.inst.nbanks →
    ∃ t, exec (.or rd rs) s = .next t ∧
      if s.wc rd.toNat = s.wc rs.toNat then
        SameOtherStores rd s t ∧ t.cap rd.toNat = s.cap rd.toNat ∧
          (t.wordVals rd.toNat).length = s.wc rd.toNat ∧
          (∀ k, k < s.wc rd.toNat → t.wordVal rd.toNat k = s.wordVal rd.toNat k ||| s.wordVal rs.toNat k) ∧
          Answers s t [] 0x00 (rd.setWidth 32)
      else SameStores s t ∧ Answers s t [] 0x02 0

/-- R89: XOR, word by word over the whole receiver, or SizeMismatch and nothing changes. -/
def Obligations.XorCombinesEveryWord : Prop :=
  ∀ (s : State) (rd rs : BankNumber), s.wf = true → rd.toNat < s.inst.nbanks → rs.toNat < s.inst.nbanks →
    ∃ t, exec (.xor rd rs) s = .next t ∧
      if s.wc rd.toNat = s.wc rs.toNat then
        SameOtherStores rd s t ∧ t.cap rd.toNat = s.cap rd.toNat ∧
          (t.wordVals rd.toNat).length = s.wc rd.toNat ∧
          (∀ k, k < s.wc rd.toNat → t.wordVal rd.toNat k = s.wordVal rd.toNat k ^^^ s.wordVal rs.toNat k) ∧
          Answers s t [] 0x00 (rd.setWidth 32)
      else SameStores s t ∧ Answers s t [] 0x02 0

/-- R90: NOT complements every word, W bits wide, padding included. -/
def Obligations.NotComplementsEveryWord : Prop :=
  ∀ (s : State) (rd : BankNumber), s.wf = true → rd.toNat < s.inst.nbanks →
    ∃ t, exec (.not rd) s = .next t ∧ SameOtherStores rd s t ∧ t.cap rd.toNat = s.cap rd.toNat ∧
      (t.wordVals rd.toNat).length = s.wc rd.toNat ∧
      (∀ k, k < s.wc rd.toNat → t.wordVal rd.toNat k = 2 ^ s.W - 1 - s.wordVal rd.toNat k) ∧
      Answers s t [] 0x00 (rd.setWidth 32)

/-- R90, R89, R87, R88, corner cases: NOT twice, XOR with the same other bank twice restore every word; XOR with itself
clears every word; AND and OR with itself change nothing. -/
def Obligations.BooleanLawsHoldOnEveryWord : Prop :=
  ∀ (s : State) (rd rs : BankNumber), s.wf = true → rd.toNat < s.inst.nbanks → rs.toNat < s.inst.nbanks →
    SameStores s (after (.not rd) (after (.not rd) s)) ∧
    (rd ≠ rs → SameStores s (after (.xor rd rs) (after (.xor rd rs) s))) ∧
    (after (.xor rd rd) s).wordVals rd.toNat = List.replicate (s.wc rd.toNat) 0 ∧
    SameStores s (after (.and rd rd) s) ∧ SameStores s (after (.or rd rd) s)

/-! Shifts. -/

/-- R92: LSHIFT shifts every word by itself, truncated to W bits, all zero from a count of W on. -/
def Obligations.LshiftShiftsEveryWordByItself : Prop :=
  ∀ (s : State) (rd : BankNumber) (num : Immediate), s.wf = true → rd.toNat < s.inst.nbanks →
    ∃ t, exec (.lshift rd num) s = .next t ∧ SameOtherStores rd s t ∧ t.cap rd.toNat = s.cap rd.toNat ∧
      (t.wordVals rd.toNat).length = s.wc rd.toNat ∧
      (∀ k, k < s.wc rd.toNat → t.wordVal rd.toNat k =
        if s.W ≤ num.toNat then 0 else s.wordVal rd.toNat k * 2 ^ num.toNat % 2 ^ s.W) ∧
      Answers s t [] 0x00 (rd.setWidth 32)

/-- R93: RSHIFT shifts every word by itself, zero-filled, all zero from a count of W on. -/
def Obligations.RshiftShiftsEveryWordByItself : Prop :=
  ∀ (s : State) (rd : BankNumber) (num : Immediate), s.wf = true → rd.toNat < s.inst.nbanks →
    ∃ t, exec (.rshift rd num) s = .next t ∧ SameOtherStores rd s t ∧ t.cap rd.toNat = s.cap rd.toNat ∧
      (t.wordVals rd.toNat).length = s.wc rd.toNat ∧
      (∀ k, k < s.wc rd.toNat → t.wordVal rd.toNat k =
        if s.W ≤ num.toNat then 0 else s.wordVal rd.toNat k / 2 ^ num.toNat) ∧
      Answers s t [] 0x00 (rd.setWidth 32)

/-- R92, R93, bit-level view: a left shift moves bits to lower slots of the same word, a right shift to higher ones; no bit
crosses into another word. -/
def Obligations.ShiftsMoveSlotsWithinAWord : Prop :=
  ∀ (s : State) (rd : BankNumber) (num : Immediate) (k o : Nat), s.wf = true → rd.toNat < s.inst.nbanks →
    k < s.wc rd.toNat → o < s.W → num.toNat < s.W →
    ((after (.lshift rd num) s).slot rd.toNat (k * s.W + o) =
      if o + num.toNat ≤ s.W - 1 then s.slot rd.toNat (k * s.W + o + num.toNat) else false) ∧
    ((after (.rshift rd num) s).slot rd.toNat (k * s.W + o) =
      if num.toNat ≤ o then s.slot rd.toNat (k * s.W + o - num.toNat) else false)

/-- R92, corner case 6: two left shifts add their counts as integers. -/
def Obligations.LshiftCountsAdd : Prop :=
  ∀ (s : State) (rd : BankNumber) (m n : Immediate), m.toNat + n.toNat ≤ 2 ^ 32 - 1 →
    SameStores (after (.lshift rd (m + n)) s) (after (.lshift rd n) (after (.lshift rd m) s))

/-- R15 and conflict C1: padding bits are real: a store whose logical bit 8 is 0 reads 1 there after LSHIFT by 2, the one
coming from a padding bit that no GET could address before. -/
def Obligations.LshiftBringsPaddingIntoView : Prop :=
  ∃ s : State, s.wf = true ∧ reply (.get 0 8) s = [.completion 0] ∧
    replyStatus (reply (.get 0 10) s) = some 0x01 ∧ s.slot 0 10 = true ∧
    reply (.get 0 8) (after (.lshift 0 2) s) = [.completion 1]

/-! Copy, fill and queries. -/

/-- R94: COPY makes RD an exact duplicate of RS, capacity and all words, padding included. -/
def Obligations.CopyDuplicatesTheStore : Prop :=
  ∀ (s : State) (rd rs : BankNumber), s.wf = true → rd.toNat < s.inst.nbanks → rs.toNat < s.inst.nbanks →
    ∃ t, exec (.copy rd rs) s = .next t ∧ SameOtherStores rd s t ∧ t.cap rd.toNat = s.cap rs.toNat ∧
      t.wordVals rd.toNat = s.wordVals rs.toNat ∧ Answers s t [] 0x00 (rd.setWidth 32)

/-- R94, corner case 4: after a COPY, a command on either bank leaves the other as the COPY left it. -/
def Obligations.CopyIsIndependentOfItsSource : Prop :=
  ∀ (s : State) (rd rs : BankNumber) (i : Instr), s.wf = true → rd.toNat < s.inst.nbanks → rs.toNat < s.inst.nbanks →
    rd ≠ rs →
    (i.rd = rd → (after i (after (.copy rd rs) s)).cap rs.toNat = s.cap rs.toNat ∧
      (after i (after (.copy rd rs) s)).wordVals rs.toNat = s.wordVals rs.toNat) ∧
    (i.rd = rs → (after i (after (.copy rd rs) s)).cap rd.toNat = s.cap rs.toNat ∧
      (after i (after (.copy rd rs) s)).wordVals rd.toNat = s.wordVals rs.toNat)

/-- R95: FILL makes every word all ones or all zeros, padding included. -/
def Obligations.FillSetsEveryWord : Prop :=
  ∀ (s : State) (rd : BankNumber) (bit : Bool), s.wf = true → rd.toNat < s.inst.nbanks →
    ∃ t, exec (.fill rd bit) s = .next t ∧ SameOtherStores rd s t ∧ t.cap rd.toNat = s.cap rd.toNat ∧
      t.wordVals rd.toNat = List.replicate (s.wc rd.toNat) (if bit then 2 ^ s.W - 1 else 0) ∧
      Answers s t [] 0x00 (rd.setWidth 32)

/-- R95, the source's law: after FILL every GET in range returns the bit. -/
def Obligations.GetAfterFillReturnsTheBit : Prop :=
  ∀ (s : State) (rd : BankNumber) (bit : Bool) (idx : Immediate), s.wf = true → rd.toNat < s.inst.nbanks →
    idx.toNat < (s.cap rd.toNat).toNat →
    reply (.get rd idx) (after (.fill rd bit) s) = [.completion (if bit then 1 else 0)]

/-- R96: BYTES answers `WC * (W / 8)`, which fits DATA, and changes no store. -/
def Obligations.BytesCountsTheBackingWords : Prop :=
  ∀ (s : State) (rd : BankNumber), s.wf = true → rd.toNat < s.inst.nbanks →
    ∃ t data, exec (.bytes rd) s = .next t ∧ SameStores s t ∧ Answers s t [] 0x00 data ∧
      data.toNat = ((s.cap rd.toNat).toNat + s.W - 1) / s.W * (s.W / 8) ∧ data.toNat ≤ 2 ^ 29

/-- R97: ITER streams the logical bits in index order, all before its completion, and changes no store. -/
def Obligations.IterStreamsTheLogicalBits : Prop :=
  ∀ (s : State) (rd : BankNumber), s.wf = true → rd.toNat < s.inst.nbanks →
    ∃ t bits, exec (.iter rd) s = .next t ∧ SameStores s t ∧ Answers s t bits 0x00 (s.cap rd.toNat) ∧
      bits.length = (s.cap rd.toNat).toNat ∧
      ∀ i, i < (s.cap rd.toNat).toNat →
        bits[i]? = some ((s.wordVal rd.toNat (i / s.W)).testBit (s.W - 1 - i % s.W))

/-- R98: ITER streams what GET of every index in turn would answer. -/
def Obligations.IterStreamsWhatGetReturns : Prop :=
  ∀ (s : State) (rd : BankNumber), s.wf = true → rd.toNat < s.inst.nbanks →
    (streamBitsOf (reply (.iter rd) s)).map (fun v => [Transfer.completion (if v then 1 else 0)]) =
      (List.range (s.cap rd.toNat).toNat).map (fun i => reply (.get rd (BitVec.ofNat 32 i)) s)

/-! Errors. -/

/-- R104: every command answers; an error changes nothing, sends no stream bit and has DATA 0. In every state. -/
def Obligations.AnErrorChangesNothing : Prop :=
  ∀ (i : Instr) (s : State), ∃ t bits st data, exec i s = .next t ∧ Answers s t bits st data ∧
    (st ≠ 0x00 → SameStores s t ∧ bits = [] ∧ data = 0)

/-- R100, R101, R102, R105, after decode: the status of every command, by its cause. -/
def Obligations.StatusNamesTheCause : Prop :=
  ∀ (i : Instr) (s : State), ∃ st, replyStatus (reply i s) = some st ∧
    (st = 0x03 ↔ i.wellFormed s.inst.nbanks = false) ∧
    (st = 0x01 ↔ i.wellFormed s.inst.nbanks = true ∧
      ((∃ rd idx, i = .get rd idx ∧ (s.cap rd.toNat).toNat ≤ idx.toNat) ∨
        (∃ rd idx bit, i = .set rd idx bit ∧ (s.cap rd.toNat).toNat ≤ idx.toNat))) ∧
    (st = 0x02 ↔ i.wellFormed s.inst.nbanks = true ∧ i.mnemonic ∈ [.AND, .OR, .XOR] ∧
      s.wc i.rd.toNat ≠ s.wc i.rs.toNat) ∧
    (st = 0x04 ↔ i.wellFormed s.inst.nbanks = true ∧
      ∃ rd cap, i = .init rd cap ∧ (cap.toNat = 0 ∨ s.inst.maxWords < (cap.toNat + s.W - 1) / s.W)) ∧
    st.toNat ≤ 4

/-- R107: the command after an error is executed exactly as if the failing command had not been sent. -/
def Obligations.AnErrorLeavesNoTrace : Prop :=
  ∀ (i j : Instr) (s : State), replyStatus (reply i s) ≠ some 0x00 →
    reply j (after i s) = reply j s ∧ SameStores (after j s) (after j (after i s))

/-- R60: DATA by command when the status is OK, and 0 when it is not. -/
def Obligations.DataByCommand : Prop :=
  ∀ (i : Instr) (s : State), s.wf = true →
    ∃ r, completionsOf (reply i s) = [r] ∧ (dataOf r).toNat =
      if statusOf r = 0x00 then
        match i with
        | .get rd idx => if (s.wordVal rd.toNat (idx.toNat / s.W)).testBit (s.W - 1 - idx.toNat % s.W) then 1 else 0
        | .set _ _ _ => 0
        | .bytes rd => s.wc rd.toNat * (s.W / 8)
        | .iter rd => (s.cap rd.toNat).toNat
        | _ => i.rd.toNat
      else 0

/-! The whole machine. -/

/-- R17: a command changes only the bank its RD names. In every state. -/
def Obligations.OnlyTheReceiverChanges : Prop :=
  ∀ (i : Instr) (s : State), ∃ t, exec i s = .next t ∧ SameOtherStores i.rd s t

/-- R24: a capacity changes only by reset, or by a successful INIT or COPY whose RD names the bank. -/
def Obligations.CapacityIsWrittenOnlyByInitCopyAndReset : Prop :=
  ∀ (s t : State) (b : Nat), step s = .next t → t.cap b ≠ s.cap b →
    s.ports.resetIn = true ∨
    ∃ w rest i, s.hostTurn.ports.cmd = w :: rest ∧ decode w = .ok i ∧ i.rd.toNat = b ∧
      (i.mnemonic = .INIT ∨ i.mnemonic = .COPY) ∧
      replyStatus (reply i (s.hostTurn.takeCommand rest)) = some 0x00

/-- R39: GET, BYTES and ITER change no store and answer the same again; SET, FILL and INIT done twice leave the state of the
first; NOT, XOR, LSHIFT and RSHIFT are not idempotent. -/
def Obligations.ReadsRepeatAndSomeWritesAreIdempotent : Prop :=
  (∀ (i : Instr) (s : State), i.mnemonic ∈ [.GET, .BYTES, .ITER] →
    SameStores s (after i s) ∧ reply i (after i s) = reply i s) ∧
  (∀ (i : Instr) (s : State), i.mnemonic ∈ [.SET, .FILL, .INIT] →
    SameStores (after i s) (after i (after i s))) ∧
  (∀ i : Instr, i ∈ [.not 0, .xor 0 1, .lshift 0 1, .rshift 0 1] →
    ∃ s : State, s.wf = true ∧ ¬ SameStores (after i s) (after i (after i s)))

/-- R25: a bank of capacity 0 behaves under every command as a store of zero bits. -/
def Obligations.UnconstructedBankIsAStoreOfZeroBits : Prop :=
  ∀ (s : State) (rd rs : BankNumber) (n : Immediate) (bit : Bool), s.wf = true → rd.toNat < s.inst.nbanks →
    rs.toNat < s.inst.nbanks → s.cap rd.toNat = 0 →
    replyStatus (reply (.get rd n) s) = some 0x01 ∧ replyStatus (reply (.set rd n bit) s) = some 0x01 ∧
    (∀ i ∈ [Instr.not rd, .lshift rd n, .rshift rd n, .fill rd bit],
      SameStores s (after i s) ∧ replyStatus (reply i s) = some 0x00) ∧
    (∀ i ∈ [Instr.and rd rs, .or rd rs, .xor rd rs, .and rs rd, .or rs rd, .xor rs rd],
      SameStores s (after i s) ∧ replyStatus (reply i s) = some (if s.cap rs.toNat = 0 then 0x00 else 0x02)) ∧
    reply (.bytes rd) s = [.completion 0] ∧ reply (.iter rd) s = [.completion 0] ∧
    (after (.copy rs rd) s).cap rs.toNat = 0

/-- R62, R42: with a host that takes what is offered, `n` steps take the first `n` offered words in order, and what is sent
is the replies to those words, each as if the words were issued one after another to the stores alone, each with exactly
one completion record, the last thing of it. (That the host's turn takes all that is offered is the model's: log 5.) -/
def Obligations.RunAnswersEveryCommandInOrder : Prop :=
  ∀ (s : State) (n : Nat), s.ports.resetIn = false → s.ports.hostTakes = true → n ≤ s.ports.cmd.length →
    ∃ t, core.run n s = .next t ∧ t.ports.cmd = s.ports.cmd.drop n ∧ t.ports.taken = s.ports.taken + n ∧
      t.ports.sent = s.ports.sent ++ (wordReplies (s.ports.cmd.take n) s).flatten ∧
      (wordReplies (s.ports.cmd.take n) s).length = n ∧
      ∀ r ∈ wordReplies (s.ports.cmd.take n) s, (completionsOf r).length = 1 ∧ ∃ c, r.getLast? = some (.completion c)

/-- R81, one command: a command that does not shift keeps two engines of any widths in agreement on every slot that both
have, if it ends with the same status in both, and then shows the same bits. -/
def Obligations.UnshiftedCommandsKeepWidthsInAgreement : Prop :=
  ∀ (s t : State) (i : Instr), s.wf = true → t.wf = true → SameLogical s t → isShift i = false →
    replyStatus (reply i s) = replyStatus (reply i t) →
    SameLogical (after i s) (after i t) ∧ (showsBits i = true → reply i s = reply i t)

/-- R81: for one sequence of commands without shifts, issued from reset to two engines of any widths and storage sizes, if
every command ends with the same status in both, every GET and every ITER answers the same in both. -/
def Obligations.ResultsDoNotDependOnTheWordWidth : Prop :=
  ∀ (p q : Instance) (is : List Instr), p.legal = true → q.legal = true → p.nbanks = q.nbanks →
    (∀ i ∈ is, isShift i = false) →
    (replies is (State.resetOf p)).map replyStatus = (replies is (State.resetOf q)).map replyStatus →
    ∀ (k : Nat) (i : Instr), is[k]? = some i → showsBits i = true →
      (replies is (State.resetOf p))[k]? = (replies is (State.resetOf q))[k]?
end

