-- ==== Sys2Proof/Laws/State.lean ====
section
/-! SUPPORT. One lemma per field per update of the state, so that no proof unfolds a record update. -/

namespace Sys2Proof.Machine

@[simp] theorem setBank_inst (s : State) (b : Nat) (x : Bank s.W) : (s.setBank b x).inst = s.inst := rfl
@[simp] theorem setBank_mem (s : State) (b : Nat) (x : Bank s.W) : (s.setBank b x).mem = s.mem.set b x := rfl
@[simp] theorem setBank_ports (s : State) (b : Nat) (x : Bank s.W) : (s.setBank b x).ports = s.ports := rfl

@[simp] theorem send_inst (s : State) (ts : List Transfer) : (s.send ts).inst = s.inst := rfl
@[simp] theorem send_mem (s : State) (ts : List Transfer) : (s.send ts).mem = s.mem := rfl
@[simp] theorem send_resetIn (s : State) (ts : List Transfer) : (s.send ts).ports.resetIn = s.ports.resetIn := rfl
@[simp] theorem send_cmd (s : State) (ts : List Transfer) : (s.send ts).ports.cmd = s.ports.cmd := rfl
@[simp] theorem send_taken (s : State) (ts : List Transfer) : (s.send ts).ports.taken = s.ports.taken := rfl
@[simp] theorem send_sent (s : State) (ts : List Transfer) : (s.send ts).ports.sent = s.ports.sent ++ ts := rfl
@[simp] theorem send_delivered (s : State) (ts : List Transfer) :
    (s.send ts).ports.delivered = s.ports.delivered := rfl
@[simp] theorem send_hostTakes (s : State) (ts : List Transfer) :
    (s.send ts).ports.hostTakes = s.ports.hostTakes := rfl

@[simp] theorem emit_inst (s : State) (bits : List Bool) : (s.emit bits).inst = s.inst := rfl
@[simp] theorem emit_mem (s : State) (bits : List Bool) : (s.emit bits).mem = s.mem := rfl

@[simp] theorem handOver_inst (s : State) : s.handOver.inst = s.inst := rfl
@[simp] theorem handOver_mem (s : State) : s.handOver.mem = s.mem := rfl
@[simp] theorem handOver_resetIn (s : State) : s.handOver.ports.resetIn = s.ports.resetIn := rfl
@[simp] theorem handOver_cmd (s : State) : s.handOver.ports.cmd = s.ports.cmd := rfl
@[simp] theorem handOver_taken (s : State) : s.handOver.ports.taken = s.ports.taken := rfl
@[simp] theorem handOver_sent (s : State) : s.handOver.ports.sent = s.ports.sent := rfl
@[simp] theorem handOver_delivered (s : State) : s.handOver.ports.delivered = s.ports.sent.length := rfl
@[simp] theorem handOver_hostTakes (s : State) : s.handOver.ports.hostTakes = s.ports.hostTakes := rfl

@[simp] theorem takeCommand_inst (s : State) (rest : List CommandWord) : (s.takeCommand rest).inst = s.inst := rfl
@[simp] theorem takeCommand_mem (s : State) (rest : List CommandWord) : (s.takeCommand rest).mem = s.mem := rfl
@[simp] theorem takeCommand_resetIn (s : State) (rest : List CommandWord) :
    (s.takeCommand rest).ports.resetIn = s.ports.resetIn := rfl
@[simp] theorem takeCommand_cmd (s : State) (rest : List CommandWord) : (s.takeCommand rest).ports.cmd = rest := rfl
@[simp] theorem takeCommand_taken (s : State) (rest : List CommandWord) :
    (s.takeCommand rest).ports.taken = s.ports.taken + 1 := rfl
@[simp] theorem takeCommand_sent (s : State) (rest : List CommandWord) :
    (s.takeCommand rest).ports.sent = s.ports.sent := rfl
@[simp] theorem takeCommand_delivered (s : State) (rest : List CommandWord) :
    (s.takeCommand rest).ports.delivered = s.ports.delivered := rfl
@[simp] theorem takeCommand_hostTakes (s : State) (rest : List CommandWord) :
    (s.takeCommand rest).ports.hostTakes = s.ports.hostTakes := rfl

@[simp] theorem offer_inst (s : State) (ws : List CommandWord) : (s.offer ws).inst = s.inst := rfl
@[simp] theorem offer_mem (s : State) (ws : List CommandWord) : (s.offer ws).mem = s.mem := rfl
@[simp] theorem offer_cmd (s : State) (ws : List CommandWord) : (s.offer ws).ports.cmd = s.ports.cmd ++ ws := rfl

@[simp] theorem pressReset_inst (s : State) : s.pressReset.inst = s.inst := rfl
@[simp] theorem pressReset_mem (s : State) : s.pressReset.mem = s.mem := rfl
@[simp] theorem pressReset_resetIn (s : State) : s.pressReset.ports.resetIn = true := rfl

@[simp] theorem afterReset_inst (s : State) : s.afterReset.inst = s.inst := rfl
@[simp] theorem afterReset_mem (s : State) :
    s.afterReset.mem = List.replicate s.inst.nbanks (Bank.unconstructed s.W) := rfl
@[simp] theorem afterReset_ports (s : State) :
    s.afterReset.ports = { Ports.reset with hostTakes := s.ports.hostTakes } := rfl

@[simp] theorem offerNext_inst (s : State) (w : CommandWord) : (s.offerNext w).inst = s.inst := rfl
@[simp] theorem offerNext_mem (s : State) (w : CommandWord) : (s.offerNext w).mem = s.mem := rfl

@[simp] theorem resetOf_inst (p : Instance) : (State.resetOf p).inst = p := rfl
@[simp] theorem resetOf_mem (p : Instance) :
    (State.resetOf p).mem = List.replicate p.nbanks (Bank.unconstructed p.W) := rfl
@[simp] theorem resetOf_ports (p : Instance) : (State.resetOf p).ports = Ports.reset := rfl

/-! The host's turn. -/

@[simp] theorem hostTurn_inst (s : State) : s.hostTurn.inst = s.inst := rfl
@[simp] theorem hostTurn_mem (s : State) : s.hostTurn.mem = s.mem := rfl
@[simp] theorem hostTurn_ports (s : State) : s.hostTurn.ports = s.ports.hostTurn := rfl

@[simp] theorem ports_hostTurn_resetIn (p : Ports) : p.hostTurn.resetIn = p.resetIn := by
  simp only [Ports.hostTurn]; split <;> rfl
@[simp] theorem ports_hostTurn_cmd (p : Ports) : p.hostTurn.cmd = p.cmd := by
  simp only [Ports.hostTurn]; split <;> rfl
@[simp] theorem ports_hostTurn_taken (p : Ports) : p.hostTurn.taken = p.taken := by
  simp only [Ports.hostTurn]; split <;> rfl
@[simp] theorem ports_hostTurn_sent (p : Ports) : p.hostTurn.sent = p.sent := by
  simp only [Ports.hostTurn]; split <;> rfl
@[simp] theorem ports_hostTurn_hostTakes (p : Ports) : p.hostTurn.hostTakes = p.hostTakes := by
  simp only [Ports.hostTurn]; split <;> rfl

/-- What the host's turn leaves handed over: everything, or what was before. -/
theorem ports_hostTurn_delivered (p : Ports) :
    p.hostTurn.delivered = if p.hostTakes then p.sent.length else p.delivered := by
  simp only [Ports.hostTurn]; split <;> rfl

/-! A bank's fields after a word is written. -/

@[simp] theorem setWord_cap {W : Nat} (x : Bank W) (k : Nat) (v : BitVec W) : (x.setWord k v).cap = x.cap := rfl
@[simp] theorem setWord_words {W : Nat} (x : Bank W) (k : Nat) (v : BitVec W) :
    (x.setWord k v).words = x.words.set k v := rfl
@[simp] theorem writeBit_cap {W : Nat} (x : Bank W) (i : Nat) (v : Bool) : (x.writeBit i v).cap = x.cap := rfl
@[simp] theorem mapWords_cap {W : Nat} (f : BitVec W → BitVec W) (x : Bank W) : (x.mapWords f).cap = x.cap := rfl
@[simp] theorem mapWords_words {W : Nat} (f : BitVec W → BitVec W) (x : Bank W) :
    (x.mapWords f).words = x.words.map f := rfl
@[simp] theorem zipWords_cap {W : Nat} (f : BitVec W → BitVec W → BitVec W) (x y : Bank W) :
    (x.zipWords f y).cap = x.cap := rfl
@[simp] theorem zipWords_words {W : Nat} (f : BitVec W → BitVec W → BitVec W) (x y : Bank W) :
    (x.zipWords f y).words = List.zipWith f x.words y.words := rfl
@[simp] theorem fresh_cap (W : Nat) (cap : Immediate) : (Bank.fresh W cap).cap = cap := rfl
@[simp] theorem fresh_words (W : Nat) (cap : Immediate) :
    (Bank.fresh W cap).words = List.replicate (divUp cap.toNat W) 0#W := rfl
@[simp] theorem unconstructed_cap (W : Nat) : (Bank.unconstructed W).cap = 0 := rfl
@[simp] theorem unconstructed_words (W : Nat) : (Bank.unconstructed W).words = [] := rfl

end Sys2Proof.Machine
end

