-- ==== Sys2Proof/Laws/Bank.lean ====
section
/-! SUPPORT. Reading and writing one bit of a bank, the bulk loops word by word, and that every bank operation keeps the
bank's form. -/

namespace Sys2Proof.Machine

theorem width_pos (p : Instance) : 0 < p.W := by
  rcases p with ⟨w, n, m⟩
  cases w <;> simp [Instance.W]

/-! BitAddress and its bit. -/

theorem bitPosition_lt {W : Nat} (hW : 0 < W) (i : Nat) : bitPosition W i < W := by
  simp only [bitPosition, localOffset]; omega

/-- Two indices of one word with different offsets have different positions (R32). -/
theorem bitPosition_ne {W i j : Nat} (hW : 0 < W) (h : localOffset W i ≠ localOffset W j) :
    bitPosition W i ≠ bitPosition W j := by
  have := Nat.mod_lt i hW
  have := Nat.mod_lt j hW
  simp only [bitPosition, localOffset] at *
  omega

/-- An index is its word index and its offset (R30). -/
theorem eq_of_wordIndex_localOffset {W i j : Nat} (hk : wordIndex W i = wordIndex W j)
    (ho : localOffset W i = localOffset W j) : i = j := by
  simp only [wordIndex, localOffset] at *
  rw [← Nat.div_add_mod i W, ← Nat.div_add_mod j W, hk, ho]

theorem and_one_eq_one {W : Nat} (hW : 0 < W) (w : BitVec W) : ((w &&& 1#W) == 1#W) = w.getLsbD 0 := by
  have h1 : (1#W).getLsbD 0 = true := by simp [hW]
  by_cases hb : w.getLsbD 0
  · have : w &&& 1#W = 1#W := by
      ext k hk
      rcases Nat.eq_zero_or_pos k with rfl | hp
      · simp_all [← BitVec.getLsbD_eq_getElem]
      · simp [BitVec.getElem_one, Nat.pos_iff_ne_zero.mp hp]
    simp [this, hb]
  · have : w &&& 1#W ≠ 1#W := by
      intro h
      have := congrArg (fun v => BitVec.getLsbD v 0) h
      simp only [BitVec.getLsbD_and, h1, Bool.and_true] at this
      exact hb this
    simp [this, hb]

/-- ReadBit is the bit at position `W - 1 - o` of the word (R32, R33). -/
theorem readBit_eq_getLsbD {W : Nat} (hW : 0 < W) (x : Bank W) (i : Nat) :
    x.readBit i = (x.word (wordIndex W i)).getLsbD (bitPosition W i) := by
  simp only [Bank.readBit, and_one_eq_one hW, BitVec.getLsbD_ushiftRight, Nat.add_zero]

/-- Past the words every slot reads 0. -/
theorem readBit_of_length_le {W : Nat} (hW : 0 < W) (x : Bank W) {i : Nat} (h : x.words.length ≤ wordIndex W i) :
    x.readBit i = false := by
  rw [readBit_eq_getLsbD hW]
  simp [Bank.word, List.getElem?_eq_none h]

theorem bitMask_getLsbD {W : Nat} (hW : 0 < W) (i p : Nat) :
    (bitMask W i).getLsbD p = decide (p = bitPosition W i) := by
  have := bitPosition_lt hW i
  simp only [bitMask, BitVec.getLsbD_shiftLeft, BitVec.getLsbD_one]
  by_cases h : p = bitPosition W i
  · subst h; simp [this, hW]
  · rcases Nat.lt_or_ge p (bitPosition W i) with h' | h'
    · simp [h, h']
    · have : p - bitPosition W i ≠ 0 := by omega
      simp [h, this]

theorem word_setWord {W : Nat} (x : Bank W) (k j : Nat) (v : BitVec W) :
    (x.setWord k v).word j = if k = j ∧ k < x.words.length then v else x.word j := by
  by_cases h : k = j
  · subst h
    by_cases hl : k < x.words.length
    · simp [Bank.word, hl]
    · simp [Bank.word, hl]
  · simp [Bank.word, h]

/-- After WriteBit the bit reads as written (R34). -/
theorem readBit_writeBit_same {W : Nat} (hW : 0 < W) (x : Bank W) (i : Nat) (v : Bool)
    (h : wordIndex W i < x.words.length) : (x.writeBit i v).readBit i = v := by
  rw [readBit_eq_getLsbD hW, Bank.writeBit, word_setWord]
  have := bitPosition_lt hW i
  cases v <;> simp [h, bitMask_getLsbD hW, this]

/-- After WriteBit every other bit, padding included, reads as before (R34). -/
theorem readBit_writeBit_other {W : Nat} (hW : 0 < W) (x : Bank W) (i j : Nat) (v : Bool) (h : j ≠ i) :
    (x.writeBit i v).readBit j = x.readBit j := by
  rw [readBit_eq_getLsbD hW, readBit_eq_getLsbD hW, Bank.writeBit, word_setWord]
  split
  · next hk =>
    have hp := bitPosition_lt hW j
    have hne : bitPosition W j ≠ bitPosition W i :=
      bitPosition_ne hW fun ho => h (eq_of_wordIndex_localOffset hk.1.symm ho)
    rw [← hk.1]
    cases v <;>
      simp only [Bool.false_eq_true, if_false, if_true, BitVec.getLsbD_and, BitVec.getLsbD_or, BitVec.getLsbD_not,
        bitMask_getLsbD hW, hne, hp, decide_true, decide_false, Bool.not_false, Bool.and_true, Bool.or_false]
  · rfl

/-! The bulk loops, word by word. -/

theorem word_mapWords {W : Nat} (f : BitVec W → BitVec W) (x : Bank W) {k : Nat} (h : k < x.words.length) :
    (x.mapWords f).word k = f (x.word k) := by
  simp [Bank.word, h]

theorem word_zipWords {W : Nat} (f : BitVec W → BitVec W → BitVec W) (x y : Bank W) {k : Nat}
    (hx : k < x.words.length) (hy : k < y.words.length) : (x.zipWords f y).word k = f (x.word k) (y.word k) := by
  simp [Bank.word, hx, hy]

theorem word_fresh (W : Nat) (cap : Immediate) (k : Nat) : (Bank.fresh W cap).word k = 0#W := by
  simp only [Bank.word, fresh_words, List.getD_eq_getElem?_getD, List.getElem?_replicate]
  split <;> rfl

/-! The form of a bank (R14). -/

theorem wf_iff {W : Nat} (n : Nat) (x : Bank W) :
    x.wf n = true ↔ x.words.length = x.wordCount ∧ x.wordCount ≤ n := by
  simp [Bank.wf]

/-- A bank keeps its form when its capacity and the number of its words stay. -/
theorem wf_of_same {W n : Nat} {x y : Bank W} (hx : x.wf n = true) (hc : y.cap = x.cap)
    (hl : y.words.length = x.words.length) : y.wf n = true := by
  rw [wf_iff] at *
  simp only [Bank.wordCount, hc, hl] at *
  exact hx

theorem unconstructed_wf {W : Nat} (hW : 0 < W) (n : Nat) : (Bank.unconstructed W).wf n = true := by
  have : (W - 1) / W = 0 := Nat.div_eq_of_lt (by omega)
  simp [wf_iff, Bank.wordCount, divUp, this]

theorem setWord_wf {W n : Nat} {x : Bank W} (h : x.wf n = true) (k : Nat) (v : BitVec W) :
    (x.setWord k v).wf n = true := wf_of_same h rfl (by simp)

theorem writeBit_wf {W n : Nat} {x : Bank W} (h : x.wf n = true) (i : Nat) (v : Bool) :
    (x.writeBit i v).wf n = true := setWord_wf h _ _

theorem mapWords_wf {W n : Nat} {x : Bank W} (h : x.wf n = true) (f : BitVec W → BitVec W) :
    (x.mapWords f).wf n = true := wf_of_same h rfl (by simp)

theorem zipWords_wf {W n : Nat} {x y : Bank W} (hx : x.wf n = true) (hy : y.wf n = true)
    (hc : x.wordCount = y.wordCount) (f : BitVec W → BitVec W → BitVec W) : (x.zipWords f y).wf n = true := by
  refine wf_of_same hx rfl ?_
  have := ((wf_iff n x).mp hx).1
  have := ((wf_iff n y).mp hy).1
  simp only [zipWords_words, List.length_zipWith]
  omega

theorem fresh_wf {W n : Nat} {cap : Immediate} (h : divUp cap.toNat W ≤ n) : (Bank.fresh W cap).wf n = true := by
  simp [wf_iff, Bank.wordCount, h]

/-- A logical bit's word exists (R31). -/
theorem wordIndex_lt_wordCount {W : Nat} (hW : 0 < W) (x : Bank W) {i : Nat} (h : i < x.cap.toNat) :
    wordIndex W i < x.wordCount := by
  simp only [wordIndex, Bank.wordCount, divUp]
  rw [Nat.div_lt_iff_lt_mul hW]
  have h1 := Nat.div_add_mod (x.cap.toNat + W - 1) W
  have h2 := Nat.mod_lt (x.cap.toNat + W - 1) hW
  rw [Nat.mul_comm] at h1
  omega

end Sys2Proof.Machine
end

