-- ==== Sys2Proof/Laws/Memory.lean ====
section
/-! SUPPORT. The bit store: what a bank reads as after another is written, and that every memory operation keeps the store's
form. -/

namespace Sys2Proof.Machine

theorem memory_wf_iff {W : Nat} (n k : Nat) (m : Memory W) :
    Memory.wf n k m = true ↔ m.length = n ∧ ∀ x ∈ m, x.wf k = true := by
  simp [Memory.wf]

theorem set_memory_wf {W n k : Nat} {m : Memory W} (h : Memory.wf n k m = true) (b : Nat) {x : Bank W}
    (hx : x.wf k = true) : Memory.wf (W := W) n k (m.set b x) = true := by
  rw [memory_wf_iff] at *
  refine ⟨by simp [h.1], fun y hy => ?_⟩
  rcases List.mem_or_eq_of_mem_set hy with h' | rfl
  · exact h.2 y h'
  · exact hx

theorem reset_memory_wf {W : Nat} (hW : 0 < W) (n k : Nat) :
    Memory.wf (W := W) n k (List.replicate n (Bank.unconstructed W)) = true := by
  rw [memory_wf_iff]
  refine ⟨by simp, fun x hx => ?_⟩
  rw [List.eq_of_mem_replicate hx]
  exact unconstructed_wf hW k

theorem state_wf_iff (s : State) :
    s.wf = true ↔ s.inst.legal = true ∧ s.mem.length = s.inst.nbanks ∧ ∀ x ∈ s.mem, x.wf s.inst.maxWords = true := by
  simp only [State.wf, Bool.and_eq_true, memory_wf_iff]

theorem legal_iff (p : Instance) :
    p.legal = true ↔ 1 ≤ p.nbanks ∧ p.nbanks ≤ 16 ∧ 1 ≤ p.maxWords ∧ p.maxWords ≤ 2 ^ 32 / p.W := by
  simp [Instance.legal, and_assoc]

/-- Every bank of a well-formed state has its form, an absent one too. -/
theorem bank_wf {s : State} (h : s.wf = true) (b : Nat) : (s.bank b).wf s.inst.maxWords = true := by
  rw [state_wf_iff] at h
  simp only [State.bank, List.getD_eq_getElem?_getD]
  rcases Nat.lt_or_ge b s.mem.length with hb | hb
  · simpa [hb] using h.2.2 _ (List.getElem_mem hb)
  · simpa [List.getElem?_eq_none hb] using unconstructed_wf (width_pos s.inst) _

theorem bank_words_length {s : State} (h : s.wf = true) (b : Nat) : (s.bank b).words.length = s.wc b :=
  ((wf_iff _ _).mp (bank_wf h b)).1

theorem wc_le_maxWords {s : State} (h : s.wf = true) (b : Nat) : s.wc b ≤ s.inst.maxWords :=
  ((wf_iff _ _).mp (bank_wf h b)).2

/-- A bank at or past the end of the store reads as unconstructed. -/
theorem bank_of_length_le {s : State} {b : Nat} (h : s.mem.length ≤ b) : s.bank b = Bank.unconstructed s.W := by
  simp [State.bank, List.getElem?_eq_none h]

/-! Writing one bank. -/

/-- The bank written reads as written, every other as before (R17). -/
theorem bank_setBank (s : State) (b c : Nat) (x : Bank s.W) :
    (s.setBank b x).bank c = if b = c ∧ b < s.mem.length then x else s.bank c := by
  change (s.mem.set b x).getD c (Bank.unconstructed s.W) = _
  simp only [State.bank, List.getD_eq_getElem?_getD, List.getElem?_set]
  by_cases h : b = c
  · subst h
    by_cases hl : b < s.mem.length
    · simp [hl]
    · simp [hl]
  · simp [h]

theorem setBank_wf {s : State} (h : s.wf = true) (b : Nat) {x : Bank s.W} (hx : x.wf s.inst.maxWords = true) :
    (s.setBank b x).wf = true := by
  simp only [State.wf, Bool.and_eq_true] at *
  exact ⟨h.1, set_memory_wf h.2 b hx⟩

theorem send_wf {s : State} (h : s.wf = true) (ts : List Transfer) : (s.send ts).wf = true := h

theorem cap_setBank (s : State) (b c : Nat) (x : Bank s.W) :
    (s.setBank b x).cap c = if b = c ∧ b < s.mem.length then x.cap else s.cap c := by
  simp only [State.cap, bank_setBank]; split <;> rfl

theorem wc_setBank (s : State) (b c : Nat) (x : Bank s.W) :
    (s.setBank b x).wc c = if b = c ∧ b < s.mem.length then x.wordCount else s.wc c := by
  simp only [State.wc, bank_setBank]; split <;> rfl

theorem wordVal_setBank (s : State) (b c k : Nat) (x : Bank s.W) :
    (s.setBank b x).wordVal c k = if b = c ∧ b < s.mem.length then (x.word k).toNat else s.wordVal c k := by
  simp only [State.wordVal, bank_setBank]; split <;> rfl

theorem wordVals_setBank (s : State) (b c : Nat) (x : Bank s.W) :
    (s.setBank b x).wordVals c = if b = c ∧ b < s.mem.length then x.words.map BitVec.toNat else s.wordVals c := by
  simp only [State.wordVals, bank_setBank]; split <;> rfl

theorem slot_setBank (s : State) (b c i : Nat) (x : Bank s.W) :
    (s.setBank b x).slot c i = if b = c ∧ b < s.mem.length then x.readBit i else s.slot c i := by
  simp only [State.slot, bank_setBank]; split <;> rfl

/-! Updates of the ports leave every bank alone. -/

@[simp] theorem cap_send (s : State) (ts : List Transfer) (b : Nat) : (s.send ts).cap b = s.cap b := rfl
@[simp] theorem wc_send (s : State) (ts : List Transfer) (b : Nat) : (s.send ts).wc b = s.wc b := rfl
@[simp] theorem wordVal_send (s : State) (ts : List Transfer) (b k : Nat) :
    (s.send ts).wordVal b k = s.wordVal b k := rfl
@[simp] theorem wordVals_send (s : State) (ts : List Transfer) (b : Nat) : (s.send ts).wordVals b = s.wordVals b := rfl
@[simp] theorem slot_send (s : State) (ts : List Transfer) (b i : Nat) : (s.send ts).slot b i = s.slot b i := rfl
@[simp] theorem cap_hostTurn (s : State) (b : Nat) : s.hostTurn.cap b = s.cap b := rfl
@[simp] theorem wordVals_hostTurn (s : State) (b : Nat) : s.hostTurn.wordVals b = s.wordVals b := rfl
@[simp] theorem cap_takeCommand (s : State) (rest : List CommandWord) (b : Nat) :
    (s.takeCommand rest).cap b = s.cap b := rfl
@[simp] theorem wordVals_takeCommand (s : State) (rest : List CommandWord) (b : Nat) :
    (s.takeCommand rest).wordVals b = s.wordVals b := rfl

/-- A store whose memory is the same holds the same. -/
theorem sameStores_refl (s : State) : SameStores s s := ⟨rfl, fun _ => ⟨rfl, rfl⟩⟩

theorem sameStores_trans {s t u : State} (h : SameStores s t) (h' : SameStores t u) : SameStores s u :=
  ⟨h'.1.trans h.1, fun b => ⟨(h'.2 b).1.trans (h.2 b).1, (h'.2 b).2.trans (h.2 b).2⟩⟩

theorem sameStores_send (s : State) (ts : List Transfer) : SameStores s (s.send ts) := ⟨rfl, fun _ => ⟨rfl, rfl⟩⟩

theorem sameOtherStores_setBank_send (s : State) (rd : BankNumber) (x : Bank s.W) (ts : List Transfer) :
    SameOtherStores rd s ((s.setBank rd.toNat x).send ts) := by
  refine ⟨rfl, by simp, fun b hb => ?_⟩
  simp [cap_setBank, wordVals_setBank, Ne.symm hb]

end Sys2Proof.Machine
end

