-- ==== Sys2Proof/Laws/Ops.lean ====
section
/-! SUPPORT. For each shared operation and each meaning, once, everything it can answer; the provers cite these instead of
unfolding them. -/

namespace Sys2Proof.Machine

theorem hasBank_iff (s : State) (b : BankNumber) : s.hasBank b = true ↔ b.toNat < s.inst.nbanks := by
  simp [State.hasBank, bankIndex]

theorem hasBank_eq_false_iff (s : State) (b : BankNumber) : s.hasBank b = false ↔ s.inst.nbanks ≤ b.toNat := by
  simp [State.hasBank, bankIndex]

@[simp] theorem raise_eq (s : State) (e : ErrorKind) :
    s.raise e = .next (s.send [.completion (completionRecord e.code 0)]) := rfl

@[simp] theorem complete_eq (s : State) (d : Immediate) :
    s.complete d = .next (s.send [.completion (completionRecord statusOk d)]) := rfl

@[simp] theorem receive_eq (s : State) (rd : BankNumber) (x : Bank s.W) :
    s.receive rd x = .next ((s.setBank rd.toNat x).send [.completion (completionRecord statusOk (handle rd))]) := rfl

/-- ST and DATA of a record, as numbers (R58). -/
theorem completionRecord_toNat (st : StatusCode) (d : Immediate) :
    (completionRecord st d).toNat = st.toNat * 2 ^ 56 + d.toNat := by
  have hd := d.isLt
  change BitVec.toNat (w := 8 + 24 + 32) (st ++ 0#24 ++ d) = _
  rw [BitVec.toNat_append, BitVec.toNat_append, BitVec.toNat_ofNat, Nat.zero_mod, Nat.or_zero,
    ← Nat.shiftLeft_add_eq_or_of_lt hd, Nat.shiftLeft_eq, Nat.shiftLeft_eq]
  omega

theorem statusOf_completionRecord (st : StatusCode) (d : Immediate) : statusOf (completionRecord st d) = st := by
  have hd := d.isLt
  have hs := st.isLt
  apply BitVec.eq_of_toNat_eq
  rw [statusOf, BitVec.extractLsb'_toNat, completionRecord_toNat, Nat.shiftRight_eq_div_pow]
  omega

theorem dataOf_completionRecord (st : StatusCode) (d : Immediate) : dataOf (completionRecord st d) = d := by
  have hd := d.isLt
  apply BitVec.eq_of_toNat_eq
  rw [dataOf, BitVec.extractLsb'_toNat, completionRecord_toNat, Nat.shiftRight_eq_div_pow]
  omega

theorem onReceiver_cases (s : State) (rd : BankNumber) (run : Bank s.W → Result) :
    (rd.toNat < s.inst.nbanks ∧ s.onReceiver rd run = run (s.bank rd.toNat)) ∨
    (s.inst.nbanks ≤ rd.toNat ∧ s.onReceiver rd run = s.raise .illegalCommand) := by
  simp only [State.onReceiver]
  by_cases h : s.hasBank rd = true
  · exact .inl ⟨(hasBank_iff s rd).mp h, by simp [h, bankIndex]⟩
  · simp only [Bool.not_eq_true] at h
    exact .inr ⟨(hasBank_eq_false_iff s rd).mp h, by simp [h]⟩

theorem onReceiver_of_lt {s : State} {rd : BankNumber} (h : rd.toNat < s.inst.nbanks) (run : Bank s.W → Result) :
    s.onReceiver rd run = run (s.bank rd.toNat) := by
  rcases onReceiver_cases s rd run with ⟨_, h'⟩ | ⟨h', _⟩
  · exact h'
  · omega

theorem onPair_cases (s : State) (rd rs : BankNumber) (run : Bank s.W → Bank s.W → Result) :
    (rd.toNat < s.inst.nbanks ∧ rs.toNat < s.inst.nbanks ∧
      s.onPair rd rs run = run (s.bank rd.toNat) (s.bank rs.toNat)) ∨
    ((s.inst.nbanks ≤ rd.toNat ∨ s.inst.nbanks ≤ rs.toNat) ∧ s.onPair rd rs run = s.raise .illegalCommand) := by
  simp only [State.onPair]
  by_cases h : (s.hasBank rd && s.hasBank rs) = true
  · have h' := h
    rw [Bool.and_eq_true, hasBank_iff, hasBank_iff] at h'
    exact .inl ⟨h'.1, h'.2, by simp only [h, if_true, bankIndex]⟩
  · have h' := h
    rw [Bool.and_eq_true, hasBank_iff, hasBank_iff] at h'
    exact .inr ⟨by omega, by simp only [h, Bool.false_eq_true, if_false]⟩

theorem onPair_of_lt {s : State} {rd rs : BankNumber} (hd : rd.toNat < s.inst.nbanks) (hs : rs.toNat < s.inst.nbanks)
    (run : Bank s.W → Bank s.W → Result) : s.onPair rd rs run = run (s.bank rd.toNat) (s.bank rs.toNat) := by
  rcases onPair_cases s rd rs run with ⟨_, _, h'⟩ | ⟨h', _⟩
  · exact h'
  · omega

/-- A unary bulk command answers IllegalCommand, or its receiver holds the mapped words. -/
theorem bulkUnary_cases (s : State) (rd : BankNumber) (f : BitVec s.W → BitVec s.W) :
    (rd.toNat < s.inst.nbanks ∧ s.bulkUnary rd f =
      .next ((s.setBank rd.toNat ((s.bank rd.toNat).mapWords f)).send
        [.completion (completionRecord statusOk (handle rd))])) ∨
    (s.inst.nbanks ≤ rd.toNat ∧ s.bulkUnary rd f =
      .next (s.send [.completion (completionRecord (ErrorKind.code .illegalCommand) 0)])) :=
  onReceiver_cases s rd _

/-- A binary bulk command answers IllegalCommand, SizeMismatch, or its receiver holds the combined words. -/
theorem bulkBinary_cases (s : State) (rd rs : BankNumber) (f : BitVec s.W → BitVec s.W → BitVec s.W) :
    (rd.toNat < s.inst.nbanks ∧ rs.toNat < s.inst.nbanks ∧ s.wc rd.toNat = s.wc rs.toNat ∧ s.bulkBinary rd rs f =
      .next ((s.setBank rd.toNat ((s.bank rd.toNat).zipWords f (s.bank rs.toNat))).send
        [.completion (completionRecord statusOk (handle rd))])) ∨
    (rd.toNat < s.inst.nbanks ∧ rs.toNat < s.inst.nbanks ∧ s.wc rd.toNat ≠ s.wc rs.toNat ∧ s.bulkBinary rd rs f =
      .next (s.send [.completion (completionRecord (ErrorKind.code .sizeMismatch) 0)])) ∨
    ((s.inst.nbanks ≤ rd.toNat ∨ s.inst.nbanks ≤ rs.toNat) ∧ s.bulkBinary rd rs f =
      .next (s.send [.completion (completionRecord (ErrorKind.code .illegalCommand) 0)])) := by
  rcases onPair_cases s rd rs _ with ⟨h1, h2, h⟩ | ⟨h1, h⟩
  · by_cases hc : s.wc rd.toNat = s.wc rs.toNat
    · exact .inl ⟨h1, h2, hc, h.trans (if_pos hc)⟩
    · exact .inr (.inl ⟨h1, h2, hc, h.trans (if_neg hc)⟩)
  · exact .inr (.inr ⟨h1, h⟩)

/-- An indexed access answers IllegalCommand, IndexOutOfRange, or what its body does. -/
theorem indexed_cases (s : State) (rd : BankNumber) (idx : Immediate) (run : Bank s.W → Nat → Result) :
    (rd.toNat < s.inst.nbanks ∧ idx.toNat < (s.cap rd.toNat).toNat ∧
      s.indexed rd idx run = run (s.bank rd.toNat) idx.toNat) ∨
    (rd.toNat < s.inst.nbanks ∧ (s.cap rd.toNat).toNat ≤ idx.toNat ∧ s.indexed rd idx run =
      .next (s.send [.completion (completionRecord (ErrorKind.code .indexOutOfRange) 0)])) ∨
    (s.inst.nbanks ≤ rd.toNat ∧ s.indexed rd idx run =
      .next (s.send [.completion (completionRecord (ErrorKind.code .illegalCommand) 0)])) := by
  rcases onReceiver_cases s rd _ with ⟨h1, h⟩ | ⟨h1, h⟩
  · by_cases hc : idx.toNat < (s.cap rd.toNat).toNat
    · exact .inl ⟨h1, hc, h.trans (if_neg (Nat.not_le.mpr hc))⟩
    · exact .inr (.inl ⟨h1, Nat.not_lt.mp hc, h.trans (if_pos (Nat.not_lt.mp hc))⟩)
  · exact .inr (.inr ⟨h1, h⟩)

/-! The meanings. -/

theorem capacityRefused_iff (p : Instance) (cap : Immediate) :
    capacityRefused p cap = true ↔ cap.toNat = 0 ∨ p.maxWords < divUp cap.toNat p.W := by
  simp only [capacityRefused, Bool.or_eq_true, decide_eq_true_eq, gt_iff_lt]

theorem execInit_cases (rd : BankNumber) (cap : Immediate) (s : State) :
    (rd.toNat < s.inst.nbanks ∧ capacityRefused s.inst cap = false ∧ execInit rd cap s =
      .next ((s.setBank rd.toNat (Bank.fresh s.W cap)).send [.completion (completionRecord statusOk (handle rd))])) ∨
    (rd.toNat < s.inst.nbanks ∧ capacityRefused s.inst cap = true ∧ execInit rd cap s =
      .next (s.send [.completion (completionRecord (ErrorKind.code .capacityRange) 0)])) ∨
    (s.inst.nbanks ≤ rd.toNat ∧ execInit rd cap s =
      .next (s.send [.completion (completionRecord (ErrorKind.code .illegalCommand) 0)])) := by
  rcases onReceiver_cases s rd _ with ⟨h1, h⟩ | ⟨h1, h⟩
  · cases hc : capacityRefused s.inst cap
    · exact .inl ⟨h1, rfl, h.trans (if_neg (by simp [hc]))⟩
    · exact .inr (.inl ⟨h1, rfl, h.trans (if_pos hc)⟩)
  · exact .inr (.inr ⟨h1, h⟩)

theorem execGet_cases (rd : BankNumber) (idx : Immediate) (s : State) :
    (rd.toNat < s.inst.nbanks ∧ idx.toNat < (s.cap rd.toNat).toNat ∧ execGet rd idx s =
      .next (s.send [.completion (completionRecord statusOk (bitData (s.slot rd.toNat idx.toNat)))])) ∨
    (rd.toNat < s.inst.nbanks ∧ (s.cap rd.toNat).toNat ≤ idx.toNat ∧ execGet rd idx s =
      .next (s.send [.completion (completionRecord (ErrorKind.code .indexOutOfRange) 0)])) ∨
    (s.inst.nbanks ≤ rd.toNat ∧ execGet rd idx s =
      .next (s.send [.completion (completionRecord (ErrorKind.code .illegalCommand) 0)])) :=
  indexed_cases s rd idx _

theorem execSet_cases (rd : BankNumber) (idx : Immediate) (bit : Bool) (s : State) :
    (rd.toNat < s.inst.nbanks ∧ idx.toNat < (s.cap rd.toNat).toNat ∧ execSet rd idx bit s =
      .next ((s.setBank rd.toNat ((s.bank rd.toNat).writeBit idx.toNat bit)).send
        [.completion (completionRecord statusOk 0)])) ∨
    (rd.toNat < s.inst.nbanks ∧ (s.cap rd.toNat).toNat ≤ idx.toNat ∧ execSet rd idx bit s =
      .next (s.send [.completion (completionRecord (ErrorKind.code .indexOutOfRange) 0)])) ∨
    (s.inst.nbanks ≤ rd.toNat ∧ execSet rd idx bit s =
      .next (s.send [.completion (completionRecord (ErrorKind.code .illegalCommand) 0)])) :=
  indexed_cases s rd idx _

theorem execCopy_cases (rd rs : BankNumber) (s : State) :
    (rd.toNat < s.inst.nbanks ∧ rs.toNat < s.inst.nbanks ∧ execCopy rd rs s =
      .next ((s.setBank rd.toNat (s.bank rs.toNat)).send [.completion (completionRecord statusOk (handle rd))])) ∨
    ((s.inst.nbanks ≤ rd.toNat ∨ s.inst.nbanks ≤ rs.toNat) ∧ execCopy rd rs s =
      .next (s.send [.completion (completionRecord (ErrorKind.code .illegalCommand) 0)])) :=
  onPair_cases s rd rs _

theorem execBytes_cases (rd : BankNumber) (s : State) :
    (rd.toNat < s.inst.nbanks ∧ execBytes rd s =
      .next (s.send [.completion (completionRecord statusOk (BitVec.ofNat 32 (s.wc rd.toNat * (s.W / 8))))])) ∨
    (s.inst.nbanks ≤ rd.toNat ∧ execBytes rd s =
      .next (s.send [.completion (completionRecord (ErrorKind.code .illegalCommand) 0)])) :=
  onReceiver_cases s rd _

theorem execIter_cases (rd : BankNumber) (s : State) :
    (rd.toNat < s.inst.nbanks ∧ execIter rd s =
      .next ((s.send ((s.bank rd.toNat).logicalBits.map .stream)).send
        [.completion (completionRecord statusOk (s.cap rd.toNat))])) ∨
    (s.inst.nbanks ≤ rd.toNat ∧ execIter rd s =
      .next (s.send [.completion (completionRecord (ErrorKind.code .illegalCommand) 0)])) :=
  onReceiver_cases s rd _

end Sys2Proof.Machine
end

