-- ==== Sys2Proof/Laws/PerInstr.lean ====
section
/-! SUPPORT. A fact of every command's encoding, one lemma per command: its word has the opcode of its row and a
zero field Z (R52, R55). -/

namespace Sys2Proof.Laws

/-- OP is the top byte of an assembled word. -/
theorem opOf_assembleFields (op : BitVec 8) (rd rs : BankNumber) (b : Bool) (imm : Immediate) :
    opOf (assembleFields op rd rs b imm) = op := by
  ext k hk
  rw [← BitVec.getLsbD_eq_getElem, opOf, BitVec.getLsbD_extractLsb']
  change (decide (k < 8) && BitVec.getLsbD (w := 8 + 4 + 4 + 15 + 1 + 32)
    (op ++ rd ++ rs ++ 0#15 ++ BitVec.ofBool b ++ imm) (56 + k)) = _
  rw [BitVec.getLsbD_append, BitVec.getLsbD_append, BitVec.getLsbD_append, BitVec.getLsbD_append, BitVec.getLsbD_append]
  have h1 : ¬ 56 + k < 32 := by omega
  have h2 : ¬ 56 + k - 32 < 1 := by omega
  have h3 : ¬ 56 + k - 32 - 1 < 15 := by omega
  have h4 : ¬ 56 + k - 32 - 1 - 15 < 4 := by omega
  have h5 : ¬ 56 + k - 32 - 1 - 15 - 4 < 4 := by omega
  have h6 : 56 + k - 32 - 1 - 15 - 4 - 4 = k := by omega
  simp only [h1, h2, h3, h4, h5, h6, if_false, hk, decide_true, Bool.true_and, BitVec.getLsbD_eq_getElem]

/-- Z is zero in an assembled word. -/
theorem zOf_assembleFields (op : BitVec 8) (rd rs : BankNumber) (b : Bool) (imm : Immediate) :
    zOf (assembleFields op rd rs b imm) = 0#15 := by
  ext k hk
  rw [← BitVec.getLsbD_eq_getElem, zOf, BitVec.getLsbD_extractLsb']
  change (decide (k < 15) && BitVec.getLsbD (w := 8 + 4 + 4 + 15 + 1 + 32)
    (op ++ rd ++ rs ++ 0#15 ++ BitVec.ofBool b ++ imm) (33 + k)) = _
  rw [BitVec.getLsbD_append, BitVec.getLsbD_append, BitVec.getLsbD_append]
  have h1 : ¬ 33 + k < 32 := by omega
  have h2 : ¬ 33 + k - 32 < 1 := by omega
  have h3 : 33 + k - 32 - 1 < 15 := by omega
  simp [h1, h2, h3]

end Sys2Proof.Laws

/-- The word of `i` has the opcode of its row and a zero field Z (R52, R55). -/
def Sys2Proof.Laws.OpcodeField.Statement (i : Sys2Proof.Instr) : Prop :=
  Sys2Proof.opOf (Sys2Proof.encode i) = Sys2Proof.opcode i.mnemonic ∧ Sys2Proof.zOf (Sys2Proof.encode i) = 0#15

namespace Sys2Proof.Laws.OpcodeField

theorem init (rd : BankNumber) (cap : Immediate) : Statement (.init rd cap) :=
  ⟨opOf_assembleFields _ _ _ _ _, zOf_assembleFields _ _ _ _ _⟩
theorem get (rd : BankNumber) (idx : Immediate) : Statement (.get rd idx) :=
  ⟨opOf_assembleFields _ _ _ _ _, zOf_assembleFields _ _ _ _ _⟩
theorem set (rd : BankNumber) (idx : Immediate) (bit : Bool) : Statement (.set rd idx bit) :=
  ⟨opOf_assembleFields _ _ _ _ _, zOf_assembleFields _ _ _ _ _⟩
theorem and (rd rs : BankNumber) : Statement (.and rd rs) :=
  ⟨opOf_assembleFields _ _ _ _ _, zOf_assembleFields _ _ _ _ _⟩
theorem or (rd rs : BankNumber) : Statement (.or rd rs) :=
  ⟨opOf_assembleFields _ _ _ _ _, zOf_assembleFields _ _ _ _ _⟩
theorem xor (rd rs : BankNumber) : Statement (.xor rd rs) :=
  ⟨opOf_assembleFields _ _ _ _ _, zOf_assembleFields _ _ _ _ _⟩
theorem not (rd : BankNumber) : Statement (.not rd) :=
  ⟨opOf_assembleFields _ _ _ _ _, zOf_assembleFields _ _ _ _ _⟩
theorem lshift (rd : BankNumber) (num : Immediate) : Statement (.lshift rd num) :=
  ⟨opOf_assembleFields _ _ _ _ _, zOf_assembleFields _ _ _ _ _⟩
theorem rshift (rd : BankNumber) (num : Immediate) : Statement (.rshift rd num) :=
  ⟨opOf_assembleFields _ _ _ _ _, zOf_assembleFields _ _ _ _ _⟩
theorem copy (rd rs : BankNumber) : Statement (.copy rd rs) :=
  ⟨opOf_assembleFields _ _ _ _ _, zOf_assembleFields _ _ _ _ _⟩
theorem fill (rd : BankNumber) (bit : Bool) : Statement (.fill rd bit) :=
  ⟨opOf_assembleFields _ _ _ _ _, zOf_assembleFields _ _ _ _ _⟩
theorem bytes (rd : BankNumber) : Statement (.bytes rd) :=
  ⟨opOf_assembleFields _ _ _ _ _, zOf_assembleFields _ _ _ _ _⟩
theorem iter (rd : BankNumber) : Statement (.iter rd) :=
  ⟨opOf_assembleFields _ _ _ _ _, zOf_assembleFields _ _ _ _ _⟩

end Sys2Proof.Laws.OpcodeField
end

