-- ==== Sys2Proof/Laws/Step.lean ====
section
/-! SUPPORT. Everything one step can do, once. -/

namespace Sys2Proof.Machine

/-- A step is reset, or waiting, or idling, or the oldest offered word run. -/
theorem step_cases (s : State) :
    (s.ports.resetIn = true ∧ step s = .next s.afterReset) ∨
    (s.ports.resetIn = false ∧ s.hostTurn.waiting = true ∧ step s = .next s.hostTurn) ∨
    (s.ports.resetIn = false ∧ s.hostTurn.waiting = false ∧ s.ports.cmd = [] ∧ step s = .next s.hostTurn) ∨
    (∃ w rest, s.ports.resetIn = false ∧ s.hostTurn.waiting = false ∧ s.ports.cmd = w :: rest ∧
      step s = runWord exec w (s.hostTurn.takeCommand rest)) := by
  unfold step advance
  cases hr : s.ports.resetIn
  · cases hw : s.hostTurn.waiting
    · cases hc : s.ports.cmd with
      | nil => exact .inr (.inr (.inl ⟨rfl, rfl, rfl, by simp [hc]⟩))
      | cons w rest => exact .inr (.inr (.inr ⟨w, rest, rfl, rfl, rfl, by simp [hc]⟩))
    · exact .inr (.inl ⟨rfl, rfl, by simp⟩)
  · exact .inl ⟨rfl, by simp⟩

theorem runWord_cases (w : CommandWord) (s : State) :
    (∃ i, decode w = .ok i ∧ runWord exec w s = exec i s) ∨
    (∃ e, decode w = .error e ∧
      runWord exec w s = .next (s.send [.completion (completionRecord (ErrorKind.code .illegalCommand) 0)])) := by
  cases h : decode w with
  | ok i => exact .inl ⟨i, rfl, by simp [runWord, h]⟩
  | error e => exact .inr ⟨e, rfl, by simp only [runWord, h]; rfl⟩

theorem waiting_iff (s : State) : s.waiting = true ↔ s.ports.delivered < s.ports.sent.length := by
  simp [State.waiting]

theorem ready_iff (s : State) : s.ready = true ↔ s.ports.resetIn = false ∧ s.hostTurn.waiting = false := by
  simp [State.ready]

/-- A host that does its duty leaves nothing to wait for. -/
theorem not_waiting_of_hostTakes {s : State} (h : s.ports.hostTakes = true) : s.hostTurn.waiting = false := by
  simp [State.waiting, ports_hostTurn_delivered, h]

end Sys2Proof.Machine
end

