-- ==== Sys2Proof/Tests/Slice0.lean ====
section
/-! SUPPORT. The model's own tests: words written out from the encoding of R50 and R52, the bank-range check on ill-formed
commands, one or two single steps for each command with the results of spec/95_test_vectors.md, and for every statement of
Certificates/Slice0/Obligations.lean with hypotheses a state and operands that meet them. -/

namespace Sys2Proof.Tests

open Sys2Proof Sys2Proof.Machine

/-! Small engines. -/

/-- A bank from its capacity and the values of its words. -/
def bankOf (W cap : Nat) (ws : List Nat) : Bank W := { cap := BitVec.ofNat 32 cap, words := ws.map (BitVec.ofNat W) }

/-- T8 with the given banks 0 and 1, the others unconstructed. -/
def t8 (b0 b1 : Bank 8) : State :=
  { inst := instT8, mem := [b0, b1, Bank.unconstructed 8, Bank.unconstructed 8], ports := Ports.reset }

/-- T32 with the given banks 0 and 1. -/
def t32 (b0 b1 : Bank 32) : State :=
  { inst := instT32, mem := [b0, b1, Bank.unconstructed 32, Bank.unconstructed 32], ports := Ports.reset }

/-- T64 with the given bank 0. -/
def t64 (b0 : Bank 64) : State := { inst := instT64, mem := [b0, Bank.unconstructed 64], ports := Ports.reset }

/-- The store most vectors start from: 10 bits in two words of 8, with padding bits set. -/
def ten : State := t8 (bankOf 8 10 [0x7F, 0xBF]) (bankOf 8 12 [0xFF, 0xF0])

/-! Decoding: words written out from the fields of R50, and from 95_test_vectors.md 2.1. -/

theorem test_decode_init :
    decodeTableWord 64 0b0000000100110000000000000000000000000000000000000000000010000000 = some (.init 3 128) := by decide
theorem test_decode_get :
    decodeTableWord 64 0b0000001000010000000000000000000000000000000000000000000000001001 = some (.get 1 9) := by decide
theorem test_decode_set :
    decodeTableWord 64 0b0000001100100000000000000000000100000000000000000000000000100111 = some (.set 2 39 true) := by
  decide
theorem test_decode_and :
    decodeTableWord 64 0b0000010000000001000000000000000000000000000000000000000000000000 = some (.and 0 1) := by decide
theorem test_decode_or : decodeTableWord 64 0x0502000000000000 = some (.or 0 2) := by decide
theorem test_decode_xor : decodeTableWord 64 0x0630000000000000 = some (.xor 3 0) := by decide
theorem test_decode_not :
    decodeTableWord 64 0b0000011100110000000000000000000000000000000000000000000000000000 = some (.not 3) := by decide
theorem test_decode_lshift :
    decodeTableWord 64 0b0000100000000000000000000000000011111111111111111111111111111111 =
      some (.lshift 0 4294967295) := by decide
theorem test_decode_rshift : decodeTableWord 64 0x0900000000000021 = some (.rshift 0 33) := by decide
theorem test_decode_copy :
    decodeTableWord 64 0b0000101000100000000000000000000000000000000000000000000000000000 = some (.copy 2 0) := by decide
theorem test_decode_fill :
    decodeTableWord 64 0b0000101100010000000000000000000100000000000000000000000000000000 = some (.fill 1 true) := by
  decide
theorem test_decode_bytes :
    decodeTableWord 64 0b0000110000110000000000000000000000000000000000000000000000000000 = some (.bytes 3) := by decide
theorem test_decode_iter :
    decodeTableWord 64 0b0000110100010000000000000000000000000000000000000000000000000000 = some (.iter 1) := by decide

/-- The illegal words of 2.1 that are so for any NBANKS. -/
theorem test_decode_refuses :
    ∀ w ∈ [0x0000000000000000, 0x0E00000000000000, 0xFF00000000000000, 0x0201000000000000, 0x0200000100000000,
      0x0200000200000009, 0x0300000300000000, 0x0300800000000009, 0x0700000000000001, 0x0400000000000001,
      0x0400000100000000, 0x0B00000000000001, 0x0C01000000000000, 0x0D00000100000000, 0x010000010000000A],
      decodeTableWord 64 w = none := by decide

theorem test_encode_set : encode (.set 0 9 true) = 0x0300000100000009 := by decide
theorem test_assemble_text : assembleText "SET b2, 39, 1 ; a comment" = some 0x0320000100000027 := by decide
theorem test_assemble_hex : assembleText "LSHIFT b0, 0xFFFFFFFF" = some 0x08000000FFFFFFFF := by decide
theorem test_assemble_refuses_bank : assembleText "NOT b16" = none := by decide
theorem test_assemble_refuses_bit : assembleText "FILL b1, 2" = none := by decide

/-! The bank-range check refuses an absent RD in every command, and an absent RS where RS is used. -/

theorem test_wellFormed_refuses_rd :
    ∀ i ∈ [Instr.init 4 1, .get 4 0, .set 4 0 true, .and 4 0, .or 4 0, .xor 4 0, .not 4, .lshift 4 0, .rshift 4 0,
      .copy 4 0, .fill 4 true, .bytes 4, .iter 4], i.wellFormed 4 = false := by decide
theorem test_wellFormed_refuses_rs :
    ∀ i ∈ [Instr.and 0 4, .or 0 4, .xor 0 4, .copy 0 4], i.wellFormed 4 = false := by decide
theorem test_wellFormed_accepts : (Instr.get 3 0).wellFormed 4 = true ∧ (Instr.copy 3 3).wellFormed 4 = true := by decide

/-! Single commands, expected values from 95_test_vectors.md part 2. -/

theorem test_init : (after (.init 1 9) State.reset).cap 1 = 9 ∧ (after (.init 1 9) State.reset).wordVals 1 = [0] := by decide
theorem test_init_capacityRange : reply (.init 1 65) ten = [.completion 0x0400000000000000] := by decide
theorem test_get : reply (.get 0 8) ten = [.completion 1] ∧ reply (.get 0 9) ten = [.completion 0] := by decide
theorem test_get_padding : reply (.get 0 10) ten = [.completion 0x0100000000000000] := by decide
theorem test_set : (after (.set 0 9 true) ten).wordVals 0 = [0x7F, 0xFF] := by decide
theorem test_set_clear :
    (after (.set 0 5 false) (t32 (bankOf 32 40 [0xFFFFFFFF, 0xFFFFFFFF]) (Bank.unconstructed 32))).wordVals 0 =
      [0xFBFFFFFF, 0xFFFFFFFF] := by decide
theorem test_and : (after (.and 1 0) ten).wordVals 1 = [0x7F, 0xB0] := by decide
theorem test_or_mismatch :
    reply (.or 0 1) (t8 (bankOf 8 8 [0xFF]) (bankOf 8 9 [0xFF, 0x80])) = [.completion 0x0200000000000000] := by decide
theorem test_or : (after (.or 0 1) (t8 (bankOf 8 16 [0xCC, 0xF0]) (bankOf 8 16 [0xAA, 0x0F]))).wordVals 0 = [0xEE, 0xFF] := by
  decide
theorem test_xor :
    (after (.xor 0 1) (t32 (bankOf 32 40 [0xDEADBEEF, 0x12000000]) (bankOf 32 64 [0x0F0F0F0F, 0xFFFFFFFF]))).wordVals 0 =
      [0xD1A2B1E0, 0xEDFFFFFF] := by decide
theorem test_not :
    (after (.not 0) (t64 (bankOf 64 100 [0x8000000000000001, 0x10000000]))).wordVals 0 =
      [0x7FFFFFFFFFFFFFFE, 0xFFFFFFFFEFFFFFFF] := by decide
theorem test_lshift : (after (.lshift 0 1) (t8 (bankOf 8 16 [0xB5, 0x81]) (Bank.unconstructed 8))).wordVals 0 = [0x6A, 0x02] := by
  decide
theorem test_lshift_by_width :
    (after (.lshift 0 33) (t32 (bankOf 32 64 [0x80000001, 0xF000000F]) (Bank.unconstructed 32))).wordVals 0 = [0, 0] := by
  decide
theorem test_rshift : (after (.rshift 0 1) (t8 (bankOf 8 16 [0xB5, 0x81]) (Bank.unconstructed 8))).wordVals 0 = [0x5A, 0x40] := by
  decide
theorem test_copy : (after (.copy 2 0) ten).cap 2 = 10 ∧ (after (.copy 2 0) ten).wordVals 2 = [0x7F, 0xBF] := by decide
theorem test_copy_unconstructed : (after (.copy 0 2) ten).cap 0 = 0 ∧ (after (.copy 0 2) ten).wordVals 0 = [] := by decide
theorem test_fill : (after (.fill 0 true) ten).wordVals 0 = [0xFF, 0xFF] := by decide
theorem test_bytes : reply (.bytes 0) ten = [.completion 2] := by decide
theorem test_iter :
    reply (.iter 0) (t8 (bankOf 8 3 [0xA0]) (Bank.unconstructed 8)) =
      [.stream true, .stream false, .stream true, .completion 3] := by decide
theorem test_step_illegal_bank : (wordAfter 0x0240000000000000 ten).ports.sent = [.completion 0x0300000000000000] := by decide

/-! Hypotheses that can be met: one theorem for each statement that has some. -/

/-- `ten` with two words offered on the command port: an illegal one, then ITER b0. -/
def offered (w : CommandWord) : State := ten.offer [w, 0x0D00000000000000]

/-- A state whose host has stopped taking, one record not handed over. -/
def stuck : State :=
  { ten with ports := { ten.ports with taken := 1, sent := [.stream true, .completion 1], hostTakes := false } }

theorem witness_DecodeAgreesWithMaskAndMatch :
    (⟨.INIT, 0xFF0FFFFF00000000, 0x0100000000000000⟩ : OpcodeRow) ∈ opcodeMap := by decide +kernel
theorem witness_StepRunsDecodedCommand :
    (offered 0x0700000000000000).ready = true ∧
      (offered 0x0700000000000000).ports.cmd = 0x0700000000000000 :: [0x0D00000000000000] ∧
      decode 0x0700000000000000 = .ok (.not 0) := ⟨by decide, by decide, rfl⟩
/-- Each end of the two ranges of reserved opcodes. -/
theorem witness_ReservedOpcodeRaisesIllegalCommand :
    ((offered 0x0000000000000000).ready = true ∧ (offered 0x0000000000000000).ports.cmd = 0x0000000000000000 :: [0x0D00000000000000] ∧
      ((0x0000000000000000#64).toNat / 2 ^ 56 = 0 ∨ 0x0E ≤ (0x0000000000000000#64).toNat / 2 ^ 56)) ∧
    ((offered 0x0E00000000000000).ready = true ∧ (offered 0x0E00000000000000).ports.cmd = 0x0E00000000000000 :: [0x0D00000000000000] ∧
      ((0x0E00000000000000#64).toNat / 2 ^ 56 = 0 ∨ 0x0E ≤ (0x0E00000000000000#64).toNat / 2 ^ 56)) ∧
    ((offered 0xFF00000000000000).ready = true ∧ (offered 0xFF00000000000000).ports.cmd = 0xFF00000000000000 :: [0x0D00000000000000] ∧
      ((0xFF00000000000000#64).toNat / 2 ^ 56 = 0 ∨ 0x0E ≤ (0xFF00000000000000#64).toNat / 2 ^ 56)) := by decide +kernel
/-- One word for each of the three fields. -/
theorem witness_UnusedFieldRaisesIllegalCommand :
    ((offered 0x0201000000000000).ready = true ∧
      (0x0201000000000000#64).toNat / 2 ^ 48 % 16 ≠ 0 ∧ (0x0201000000000000#64).toNat / 2 ^ 56 ∉ [0x04, 0x05, 0x06, 0x0A]) ∧
    ((offered 0x0200000100000000).ready = true ∧
      (0x0200000100000000#64).toNat / 2 ^ 32 % 2 ≠ 0 ∧ (0x0200000100000000#64).toNat / 2 ^ 56 ∉ [0x03, 0x0B]) ∧
    ((offered 0x0700000000000001).ready = true ∧
      (0x0700000000000001#64).toNat % 2 ^ 32 ≠ 0 ∧
      (0x0700000000000001#64).toNat / 2 ^ 56 ∉ [0x01, 0x02, 0x03, 0x08, 0x09]) := by decide +kernel
/-- The lowest and the highest bit of field Z. -/
theorem witness_ReservedBitsRaiseIllegalCommand :
    ((offered 0x0300000300000000).ready = true ∧ (offered 0x0300000300000000).ports.cmd = 0x0300000300000000 :: [0x0D00000000000000] ∧
      (0x0300000300000000#64).toNat / 2 ^ 33 % 2 ^ 15 ≠ 0) ∧
    ((offered 0x0300800000000009).ready = true ∧ (offered 0x0300800000000009).ports.cmd = 0x0300800000000009 :: [0x0D00000000000000] ∧
      (0x0300800000000009#64).toNat / 2 ^ 33 % 2 ^ 15 ≠ 0) := by decide +kernel
theorem witness_AbsentBankRaisesIllegalCommand :
    ten.inst.nbanks ≤ (Instr.get 4 0).rd.toNat ∧
      ((Instr.and 0 4).mnemonic ∈ [Mnemonic.AND, .OR, .XOR, .COPY] ∧ ten.inst.nbanks ≤ (Instr.and 0 4).rs.toNat) := by decide +kernel
/-- A legal word, and one that is none because of NBANKS. -/
theorem witness_IllegalCommandExactlyForIllegalWords :
    ((offered 0x0230000000000000).ready = true ∧ (offered 0x0230000000000000).ports.cmd = 0x0230000000000000 :: [0x0D00000000000000]) ∧
    ((offered 0x0240000000000000).ready = true ∧ (offered 0x0240000000000000).ports.cmd = 0x0240000000000000 :: [0x0D00000000000000]) := by decide
theorem witness_OneCompletionForEveryWord :
    ((offered 0x0D00000000000000).ready = true ∧ (offered 0x0D00000000000000).ports.cmd = 0x0D00000000000000 :: [0x0D00000000000000]) ∧
    ((offered 0x0000000000000000).ready = true ∧ (offered 0x0000000000000000).ports.cmd = 0x0000000000000000 :: [0x0D00000000000000]) := by decide
theorem witness_IdleEngineHoldsItsState : ten.ready = true ∧ ten.ports.cmd = [] := by decide
theorem witness_EngineWaitsForTheHost :
    stuck.ports.resetIn = false ∧ stuck.ports.hostTakes = false ∧ stuck.ports.delivered < stuck.ports.sent.length := by decide
theorem witness_ResetInputEntersResetState : stuck.pressReset.ports.resetIn = true := by decide
theorem witness_HostTakesTransfersInOrder : ∃ t, stuck.takeTransfer = some (.stream true, t) := ⟨_, rfl⟩
theorem witness_ResetMeetsTheInvariant : instT64.legal = true := by decide
/-- A running state, one that waits, and one that is reset, each with its next state. -/
theorem witness_EveryStepKeepsTheInvariant :
    ((offered 0x0700000000000000).inv = true ∧ ∃ t, step (offered 0x0700000000000000) = .next t) ∧
    (stuck.inv = true ∧ ∃ t, step stuck = .next t) ∧
    (stuck.pressReset.inv = true ∧ ∃ t, step stuck.pressReset = .next t) :=
  ⟨⟨by decide, _, rfl⟩, ⟨by decide, _, rfl⟩, ⟨by decide, _, rfl⟩⟩
/-- Capacities 0 and one past the storage (refused), and 1 and the whole storage (constructed). -/
theorem witness_InitConstructsAnAllZeroStore :
    ten.wf = true ∧ (3#4).toNat < ten.inst.nbanks ∧
      ((0#32).toNat = 0 ∨ ten.inst.maxWords < ((0#32).toNat + ten.W - 1) / ten.W) ∧
      ((65#32).toNat = 0 ∨ ten.inst.maxWords < ((65#32).toNat + ten.W - 1) / ten.W) ∧
      ¬ ((1#32).toNat = 0 ∨ ten.inst.maxWords < ((1#32).toNat + ten.W - 1) / ten.W) ∧
      ¬ ((64#32).toNat = 0 ∨ ten.inst.maxWords < ((64#32).toNat + ten.W - 1) / ten.W) := by decide
theorem witness_FreshStoreReadsAllZero :
    ten.wf = true ∧ (3#4).toNat < ten.inst.nbanks ∧ (64#32).toNat ≠ 0 ∧
      ((64#32).toNat + ten.W - 1) / ten.W ≤ ten.inst.maxWords ∧ (63#32).toNat < (64#32).toNat := by decide
/-- The last legal index and the first illegal one. -/
theorem witness_GetReturnsTheLogicalBit :
    ten.wf = true ∧ (0#4).toNat < ten.inst.nbanks ∧ ¬ (ten.cap 0).toNat ≤ (9#32).toNat ∧
      (ten.cap 0).toNat ≤ (10#32).toNat := by decide
theorem witness_SetWritesOnlyTheLogicalBit :
    ten.wf = true ∧ (1#4).toNat < ten.inst.nbanks ∧ ¬ (ten.cap 1).toNat ≤ (11#32).toNat ∧
      (ten.cap 1).toNat ≤ (12#32).toNat := by decide
/-- With another bank, another index of the same bank, and a padding slot. -/
theorem witness_GetAfterSetReturnsTheBit :
    ten.wf = true ∧ (0#4).toNat < ten.inst.nbanks ∧ (9#32).toNat < (ten.cap 0).toNat ∧
      ((1#4) ≠ 0#4 ∨ (9#32) ≠ 9#32) ∧ ((0#4) ≠ 0#4 ∨ (8#32) ≠ 9#32) ∧ (ten.cap 0).toNat ≤ 10 := by decide
theorem witness_BoundsCheckIsOnTheCapacityInBits :
    ten.wf = true ∧ (0#4).toNat < ten.inst.nbanks ∧ (9#32).toNat < (ten.cap 0).toNat := by decide
/-- For each of the three, equal word counts and different ones. -/
theorem witness_AndCombinesEveryWord :
    ten.wf = true ∧ (0#4).toNat < ten.inst.nbanks ∧ (1#4).toNat < ten.inst.nbanks ∧ (2#4).toNat < ten.inst.nbanks ∧
      ten.wc (0#4).toNat = ten.wc (1#4).toNat ∧ 1 < ten.wc (0#4).toNat ∧ ten.wc (0#4).toNat ≠ ten.wc (2#4).toNat := by decide
theorem witness_OrCombinesEveryWord :
    ten.wf = true ∧ (1#4).toNat < ten.inst.nbanks ∧ (0#4).toNat < ten.inst.nbanks ∧ (2#4).toNat < ten.inst.nbanks ∧
      ten.wc (1#4).toNat = ten.wc (0#4).toNat ∧ 1 < ten.wc (1#4).toNat ∧ ten.wc (1#4).toNat ≠ ten.wc (2#4).toNat := by decide
theorem witness_XorCombinesEveryWord :
    ten.wf = true ∧ (0#4).toNat < ten.inst.nbanks ∧ (0#4).toNat < ten.inst.nbanks ∧ (2#4).toNat < ten.inst.nbanks ∧
      ten.wc (0#4).toNat = ten.wc (0#4).toNat ∧ 1 < ten.wc (0#4).toNat ∧ ten.wc (0#4).toNat ≠ ten.wc (2#4).toNat := by decide
theorem witness_NotComplementsEveryWord :
    ten.wf = true ∧ (0#4).toNat < ten.inst.nbanks ∧ 1 < ten.wc (0#4).toNat := by decide
theorem witness_BooleanLawsHoldOnEveryWord :
    ten.wf = true ∧ (0#4).toNat < ten.inst.nbanks ∧ (1#4).toNat < ten.inst.nbanks ∧ (0#4) ≠ 1#4 := by decide
/-- Counts on both sides of W. -/
theorem witness_LshiftShiftsEveryWordByItself :
    ten.wf = true ∧ (0#4).toNat < ten.inst.nbanks ∧ 1 < ten.wc (0#4).toNat ∧ ¬ ten.W ≤ (7#32).toNat ∧
      ten.W ≤ (8#32).toNat := by decide
theorem witness_RshiftShiftsEveryWordByItself :
    ten.wf = true ∧ (1#4).toNat < ten.inst.nbanks ∧ 1 < ten.wc (1#4).toNat ∧ ¬ ten.W ≤ (7#32).toNat ∧
      ten.W ≤ (4294967295#32).toNat := by decide
theorem witness_ShiftsMoveSlotsWithinAWord :
    ten.wf = true ∧ (0#4).toNat < ten.inst.nbanks ∧ 1 < ten.wc (0#4).toNat ∧ 7 < ten.W ∧ (7#32).toNat < ten.W := by decide
theorem witness_LshiftCountsAdd : (4294967294#32).toNat + (1#32).toNat ≤ 2 ^ 32 - 1 := by decide
theorem witness_CopyDuplicatesTheStore :
    ten.wf = true ∧ (3#4).toNat < ten.inst.nbanks ∧ (0#4).toNat < ten.inst.nbanks := by decide
theorem witness_CopyIsIndependentOfItsSource :
    ten.wf = true ∧ (3#4).toNat < ten.inst.nbanks ∧ (0#4).toNat < ten.inst.nbanks ∧ (3#4) ≠ 0#4 ∧
      (Instr.not 3).rd = 3 ∧ (Instr.not 0).rd = 0 := by decide
theorem witness_FillSetsEveryWord : ten.wf = true ∧ (0#4).toNat < ten.inst.nbanks := by decide
theorem witness_GetAfterFillReturnsTheBit :
    ten.wf = true ∧ (0#4).toNat < ten.inst.nbanks ∧ (9#32).toNat < (ten.cap 0).toNat := by decide
theorem witness_BytesCountsTheBackingWords : ten.wf = true ∧ (3#4).toNat < ten.inst.nbanks := by decide
theorem witness_IterStreamsTheLogicalBits :
    ten.wf = true ∧ (0#4).toNat < ten.inst.nbanks ∧ 9 < (ten.cap (0#4).toNat).toNat := by decide
theorem witness_IterStreamsWhatGetReturns :
    ten.wf = true ∧ (1#4).toNat < ten.inst.nbanks ∧ 0 < (ten.cap (1#4).toNat).toNat := by decide
theorem witness_AnErrorLeavesNoTrace : replyStatus (reply (.get 0 10) ten) ≠ some 0x00 := by decide
/-- A command that ends OK and one that does not. -/
theorem witness_DataByCommand :
    ten.wf = true ∧ replyStatus (reply (.bytes 0) ten) = some 0x00 ∧ replyStatus (reply (.get 0 10) ten) = some 0x01 := by
  decide
theorem witness_CapacityIsWrittenOnlyByInitCopyAndReset :
    (∃ t, step (offered 0x010000000000000B) = .next t ∧ t.cap 0 ≠ (offered 0x010000000000000B).cap 0) ∧
    (∃ t, step stuck.pressReset = .next t ∧ t.cap 0 ≠ stuck.pressReset.cap 0) :=
  ⟨⟨_, rfl, by decide⟩, ⟨_, rfl, by decide⟩⟩
theorem witness_ReadsRepeatAndSomeWritesAreIdempotent :
    (Instr.get 0 0).mnemonic ∈ [Mnemonic.GET, .BYTES, .ITER] ∧
      (Instr.set 0 0 true).mnemonic ∈ [Mnemonic.SET, .FILL, .INIT] ∧
      Instr.not 0 ∈ [Instr.not 0, .xor 0 1, .lshift 0 1, .rshift 0 1] := by decide
theorem witness_UnconstructedBankIsAStoreOfZeroBits :
    ten.wf = true ∧ (2#4).toNat < ten.inst.nbanks ∧ (0#4).toNat < ten.inst.nbanks ∧ ten.cap (2#4).toNat = 0 ∧
      ten.cap (3#4).toNat = 0 := by decide
theorem witness_RunAnswersEveryCommandInOrder :
    (offered 0).ports.resetIn = false ∧ (offered 0).ports.hostTakes = true ∧ 2 ≤ (offered 0).ports.cmd.length := by decide
/-- The same ten logical bits in words of 8 and in words of 32, and a command that shows one. -/
theorem witness_UnshiftedCommandsKeepWidthsInAgreement :
    ten.wf = true ∧ (t32 (bankOf 32 10 [0x7FBF0000]) (bankOf 32 12 [0xFFF00000])).wf = true ∧
      isShift (.get 0 8) = false ∧ showsBits (.get 0 8) = true ∧
      replyStatus (reply (.get 0 8) ten) =
        replyStatus (reply (.get 0 8) (t32 (bankOf 32 10 [0x7FBF0000]) (bankOf 32 12 [0xFFF00000]))) := by decide
theorem witness_SameLogical : SameLogical ten (t32 (bankOf 32 10 [0x7FBF0000]) (bankOf 32 12 [0xFFF00000])) := by
  refine ⟨rfl, fun b => ?_⟩
  match b with
  | 0 => exact ⟨by decide, by decide⟩
  | 1 => exact ⟨by decide, by decide⟩
  | 2 => exact ⟨by decide, by decide⟩
  | 3 => exact ⟨by decide, by decide⟩
  | n + 4 =>
    have hb : ten.bank (n + 4) = Bank.unconstructed 8 := rfl
    have hz : ten.wc (n + 4) = 0 := by rw [State.wc, hb]; decide
    exact ⟨rfl, fun i hi => by rw [hz] at hi; omega⟩
theorem witness_ResultsDoNotDependOnTheWordWidth :
    instT8.legal = true ∧ instT32.legal = true ∧ instT8.nbanks = instT32.nbanks ∧
      (∀ i ∈ [Instr.init 0 10, .set 0 9 true, .iter 0], isShift i = false) ∧
      (replies [Instr.init 0 10, .set 0 9 true, .iter 0] (State.resetOf instT8)).map replyStatus =
        (replies [Instr.init 0 10, .set 0 9 true, .iter 0] (State.resetOf instT32)).map replyStatus ∧
      [Instr.init 0 10, .set 0 9 true, .iter 0][2]? = some (.iter 0) ∧ showsBits (.iter 0) = true := by decide

end Sys2Proof.Tests
end

section
/-! PROOF. The state family: what any command leaves behind (R17, R24, R62), the reset state (R23, R121), the invariant
(R14), and a bank of capacity 0 under every command (R25). -/

namespace Sys2Proof.Machine

/-! Transfers and the ports' invariant (R62). -/

@[simp] theorem completionsOf_append (ts us : List Transfer) :
    completionsOf (ts ++ us) = completionsOf ts ++ completionsOf us := by
  induction ts with
  | nil => rfl
  | cons x ts ih => cases x <;> simp [completionsOf, ih]

@[simp] theorem completionsOf_map_stream (bits : List Bool) : completionsOf (bits.map .stream) = [] := by
  induction bits with
  | nil => rfl
  | cons v bits ih => simpa [completionsOf] using ih

theorem ports_wf_iff (p : Ports) :
    p.wf = true ↔ p.delivered ≤ p.sent.length ∧ (completionsOf p.sent).length = p.taken ∧
      (completionsOf (p.sent.drop p.delivered)).length ≤ 1 := by
  simp [Ports.wf, and_assoc]

theorem ports_reset_wf (takes : Bool) : Ports.wf { Ports.reset with hostTakes := takes } = true := rfl

/-- What the host takes in its turn was offered before, so nothing is left that was not there. -/
theorem ports_hostTurn_wf {p : Ports} (h : p.wf = true) : p.hostTurn.wf = true := by
  rw [ports_wf_iff] at *
  obtain ⟨hdelivered, htaken, howed⟩ := h
  rw [ports_hostTurn_delivered, ports_hostTurn_sent, ports_hostTurn_taken]
  split
  · exact ⟨le_rfl, htaken, by simp [completionsOf]⟩
  · exact ⟨hdelivered, htaken, howed⟩

/-- With everything handed over, the next word taken and its stream bits and one record sent, the counts agree again and
that record is the only one left to hand over. -/
theorem ports_takeCommand_send_wf {s : State} (h : s.ports.wf = true) (hready : s.waiting = false)
    (rest : List CommandWord) (bits : List Bool) (r : CompletionRecord) :
    ((s.takeCommand rest).send (bits.map .stream ++ [.completion r])).ports.wf = true := by
  rw [ports_wf_iff] at *
  obtain ⟨hdelivered, htaken, -⟩ := h
  have hall : s.ports.delivered = s.ports.sent.length := by
    simp only [State.waiting, decide_eq_false_iff_not] at hready
    omega
  simp [hall, htaken, completionsOf]

/-! What any command leaves behind, said once for all thirteen. -/

theorem send_send (s : State) (ts us : List Transfer) : (s.send ts).send us = s.send (ts ++ us) := by
  simp [State.send, List.append_assoc]

/-- `Effect i s t`: the three ways in which command `i` can turn `s` into `t`. -/
inductive Effect (i : Instr) (s : State) : State → Prop where
  /-- Only the ports change: a query, or an error (R104). -/
  | answered (bits : List Bool) (st : StatusCode) (data : Immediate) :
      Effect i s (s.send (bits.map .stream ++ [.completion (completionRecord st data)]))
  /-- The words of bank RD change, its capacity does not. -/
  | rewritten (x : Bank s.W) (data : Immediate) (hcap : x.cap = s.cap i.rd.toNat)
      (hwf : s.wf = true → x.wf s.inst.maxWords = true) :
      Effect i s ((s.setBank i.rd.toNat x).send [.completion (completionRecord statusOk data)])
  /-- Bank RD becomes another store: INIT and COPY only (R24). -/
  | rebuilt (x : Bank s.W) (data : Immediate) (hrow : i.mnemonic = .INIT ∨ i.mnemonic = .COPY)
      (hwf : s.wf = true → x.wf s.inst.maxWords = true) :
      Effect i s ((s.setBank i.rd.toNat x).send [.completion (completionRecord statusOk data)])

/-- A result that is one completion record and nothing else. -/
theorem effect_of_record {i : Instr} {s : State} {r : Result} {st : StatusCode} {data : Immediate}
    (h : r = .next (s.send [.completion (completionRecord st data)])) : ∃ t, r = .next t ∧ Effect i s t :=
  ⟨_, h, .answered [] st data⟩

theorem bulkUnary_effect (i : Instr) (s : State) (f : BitVec s.W → BitVec s.W) :
    ∃ t, s.bulkUnary i.rd f = .next t ∧ Effect i s t := by
  rcases bulkUnary_cases s i.rd f with ⟨-, h⟩ | ⟨-, h⟩
  · exact ⟨_, h, .rewritten _ _ rfl fun hs => mapWords_wf (bank_wf hs _) f⟩
  · exact effect_of_record h

theorem bulkBinary_effect (i : Instr) (s : State) (f : BitVec s.W → BitVec s.W → BitVec s.W) :
    ∃ t, s.bulkBinary i.rd i.rs f = .next t ∧ Effect i s t := by
  rcases bulkBinary_cases s i.rd i.rs f with ⟨-, -, hwc, h⟩ | ⟨-, -, -, h⟩ | ⟨-, h⟩
  · exact ⟨_, h, .rewritten _ _ rfl fun hs => zipWords_wf (bank_wf hs _) (bank_wf hs _) hwc f⟩
  · exact effect_of_record h
  · exact effect_of_record h

/-- Every command, in every state, answers a next state that one of the three ways reaches. -/
theorem exec_effect (i : Instr) (s : State) : ∃ t, exec i s = .next t ∧ Effect i s t := by
  cases i with
  | init rd cap =>
    rcases execInit_cases rd cap s with ⟨-, hcap, h⟩ | ⟨-, -, h⟩ | ⟨-, h⟩
    · have hfits : divUp cap.toNat s.W ≤ s.inst.maxWords := by
        rw [← Bool.not_eq_true, capacityRefused_iff, not_or, not_lt] at hcap
        exact hcap.2
      exact ⟨_, h, .rebuilt _ _ (.inl rfl) fun _ => fresh_wf hfits⟩
    · exact effect_of_record h
    · exact effect_of_record h
  | get rd idx =>
    rcases execGet_cases rd idx s with ⟨-, -, h⟩ | ⟨-, -, h⟩ | ⟨-, h⟩ <;> exact effect_of_record h
  | set rd idx bit =>
    rcases execSet_cases rd idx bit s with ⟨-, -, h⟩ | ⟨-, -, h⟩ | ⟨-, h⟩
    · exact ⟨_, h, .rewritten _ _ rfl fun hs => writeBit_wf (bank_wf hs _) _ _⟩
    · exact effect_of_record h
    · exact effect_of_record h
  | and rd rs => exact bulkBinary_effect (.and rd rs) s _
  | or rd rs => exact bulkBinary_effect (.or rd rs) s _
  | xor rd rs => exact bulkBinary_effect (.xor rd rs) s _
  | not rd => exact bulkUnary_effect (.not rd) s _
  | lshift rd num => exact bulkUnary_effect (.lshift rd num) s _
  | rshift rd num => exact bulkUnary_effect (.rshift rd num) s _
  | copy rd rs =>
    rcases execCopy_cases rd rs s with ⟨-, -, h⟩ | ⟨-, h⟩
    · exact ⟨_, h, .rebuilt _ _ (.inr rfl) fun hs => bank_wf hs _⟩
    · exact effect_of_record h
  | fill rd bit => exact bulkUnary_effect (.fill rd bit) s _
  | bytes rd =>
    rcases execBytes_cases rd s with ⟨-, h⟩ | ⟨-, h⟩ <;> exact effect_of_record h
  | iter rd =>
    rcases execIter_cases rd s with ⟨-, h⟩ | ⟨-, h⟩
    · rw [send_send] at h
      exact ⟨_, h, .answered _ _ _⟩
    · exact effect_of_record h

/-! What follows from the effect alone. -/

/-- On the ports, stream bits and then one completion record (R58, R61). -/
theorem Effect.ports {i : Instr} {s t : State} (h : Effect i s t) :
    ∃ (bits : List Bool) (r : CompletionRecord), t.ports = (s.send (bits.map .stream ++ [.completion r])).ports := by
  cases h with
  | answered bits st data => exact ⟨bits, _, rfl⟩
  | rewritten x data => exact ⟨[], _, rfl⟩
  | rebuilt x data => exact ⟨[], _, rfl⟩

theorem Effect.wf {i : Instr} {s t : State} (h : Effect i s t) (hs : s.wf = true) : t.wf = true := by
  cases h with
  | answered => exact send_wf hs _
  | rewritten x data hcap hwf => exact send_wf (setBank_wf hs _ (hwf hs)) _
  | rebuilt x data hrow hwf => exact send_wf (setBank_wf hs _ (hwf hs)) _

theorem Effect.sameOtherStores {i : Instr} {s t : State} (h : Effect i s t) : SameOtherStores i.rd s t := by
  cases h with
  | answered => exact ⟨rfl, rfl, fun _ _ => ⟨rfl, rfl⟩⟩
  | rewritten x data => exact sameOtherStores_setBank_send s i.rd x _
  | rebuilt x data => exact sameOtherStores_setBank_send s i.rd x _

/-- A capacity that changed is that of RD, rebuilt by a successful INIT or COPY (R24). -/
theorem Effect.of_cap_ne {i : Instr} {s t : State} {b : Nat} (h : Effect i s t) (hb : t.cap b ≠ s.cap b) :
    i.rd.toNat = b ∧ (i.mnemonic = .INIT ∨ i.mnemonic = .COPY) ∧
      ∃ data, t.ports.sent = s.ports.sent ++ [.completion (completionRecord statusOk data)] := by
  cases h with
  | answered => exact absurd rfl hb
  | rewritten x data hcap =>
    rw [cap_send, cap_setBank, hcap] at hb
    split at hb
    · next hrd => exact absurd (by rw [hrd.1]) hb
    · exact absurd rfl hb
  | rebuilt x data hrow =>
    rw [cap_send, cap_setBank] at hb
    split at hb
    · next hrd => exact ⟨hrd.1, hrow, data, rfl⟩
    · exact absurd rfl hb

/-! Replies, and commands that only send. -/

theorem after_of_exec {i : Instr} {s t : State} (h : exec i s = .next t) : after i s = t := by
  simp only [after, h]

theorem reply_of_sent {i : Instr} {s t : State} {ts : List Transfer} (h : exec i s = .next t)
    (hsent : t.ports.sent = s.ports.sent ++ ts) : reply i s = ts := by
  rw [reply, after_of_exec h, hsent, List.drop_left]

theorem reply_of_send {i : Instr} {s : State} {ts : List Transfer} (h : exec i s = .next (s.send ts)) :
    reply i s = ts := reply_of_sent h rfl

theorem sameStores_after_of_send {i : Instr} {s : State} {ts : List Transfer} (h : exec i s = .next (s.send ts)) :
    SameStores s (after i s) := by
  rw [after_of_exec h]
  exact sameStores_send s ts

theorem replyStatus_record (st : StatusCode) (data : Immediate) :
    replyStatus [.completion (completionRecord st data)] = some st := by
  simp [replyStatus, completionsOf, statusOf_completionRecord]

/-! One word, and the reset state. -/

/-- A word taken, legal or not, keeps the stores' form and sends stream bits and one completion record. -/
theorem runWord_effect (w : CommandWord) (s : State) :
    ∃ t, runWord exec w s = .next t ∧ (s.wf = true → t.wf = true) ∧
      ∃ (bits : List Bool) (r : CompletionRecord), t.ports = (s.send (bits.map .stream ++ [.completion r])).ports := by
  rcases runWord_cases w s with ⟨i, -, hrun⟩ | ⟨e, -, hrun⟩
  · obtain ⟨t, hexec, heffect⟩ := exec_effect i s
    exact ⟨t, hrun.trans hexec, heffect.wf, heffect.ports⟩
  · exact ⟨_, hrun, fun hs => send_wf hs _, [], _, rfl⟩

/-- A word that changes a capacity is an INIT or COPY into that bank, and is OK. -/
theorem runWord_of_cap_ne {s t : State} {w : CommandWord} {b : Nat} (hrun : runWord exec w s = .next t)
    (hb : t.cap b ≠ s.cap b) :
    ∃ i, decode w = .ok i ∧ i.rd.toNat = b ∧ (i.mnemonic = .INIT ∨ i.mnemonic = .COPY) ∧
      replyStatus (reply i s) = some 0x00 := by
  rcases runWord_cases w s with ⟨i, hdecode, h⟩ | ⟨e, -, h⟩
  · obtain ⟨u, hexec, heffect⟩ := exec_effect i s
    obtain rfl : u = t := by simpa [h, hexec] using hrun
    obtain ⟨hrd, hrow, data, hsent⟩ := heffect.of_cap_ne hb
    exact ⟨i, hdecode, hrd, hrow, by rw [reply_of_sent hexec hsent]; exact replyStatus_record _ _⟩
  · obtain rfl : s.send _ = t := by simpa [h] using hrun
    exact absurd rfl hb

theorem inv_iff (s : State) : s.inv = true ↔ s.wf = true ∧ s.ports.wf = true := by
  simp [State.inv]

theorem bank_resetOf (p : Instance) (b : Nat) : (State.resetOf p).bank b = Bank.unconstructed p.W := by
  change (List.replicate p.nbanks (Bank.unconstructed p.W)).getD b (Bank.unconstructed p.W) = _
  rw [List.getD_eq_getElem?_getD, List.getElem?_replicate]
  split <;> rfl

theorem resetOf_wf {p : Instance} (h : p.legal = true) : (State.resetOf p).wf = true := by
  rw [State.wf, Bool.and_eq_true]
  exact ⟨h, reset_memory_wf (width_pos p) p.nbanks p.maxWords⟩

theorem resetOf_inv {p : Instance} (h : p.legal = true) : (State.resetOf p).inv = true :=
  (inv_iff _).mpr ⟨resetOf_wf h, ports_reset_wf true⟩

theorem hostTurn_inv {s : State} (h : s.inv = true) : s.hostTurn.inv = true := by
  rw [inv_iff] at *
  exact ⟨h.1, ports_hostTurn_wf h.2⟩

theorem afterReset_inv {s : State} (h : s.wf = true) : s.afterReset.inv = true :=
  (inv_iff _).mpr ⟨resetOf_wf ((state_wf_iff s).mp h).1, ports_reset_wf s.ports.hostTakes⟩

/-- A word taken when nothing is left to hand over keeps the invariant. -/
theorem runWord_inv {s t : State} {w : CommandWord} {rest : List CommandWord} (h : s.inv = true)
    (hready : s.waiting = false) (hrun : runWord exec w (s.takeCommand rest) = .next t) : t.inv = true := by
  obtain ⟨u, hu, hwf, bits, r, hports⟩ := runWord_effect w (s.takeCommand rest)
  obtain rfl : u = t := by simpa [hu] using hrun
  rw [inv_iff] at *
  exact ⟨hwf h.1, hports ▸ ports_takeCommand_send_wf h.2 hready rest bits r⟩

/-! A bank of capacity 0 (R25). -/

/-- Zero words exactly for zero bits (R12). -/
theorem wc_eq_zero_iff (s : State) (b : Nat) : s.wc b = 0 ↔ s.cap b = 0 := by
  have hW := width_pos s.inst
  rw [State.wc, Bank.wordCount, divUp, Nat.div_eq_zero_iff, BitVec.toNat_eq (x := s.cap b), State.cap]
  simp only [State.W, BitVec.ofNat_eq_ofNat, BitVec.toNat_ofNat, Nat.zero_mod]
  omega

theorem bank_of_cap_zero {s : State} {b : Nat} (hs : s.wf = true) (hb : s.cap b = 0) :
    s.bank b = Bank.unconstructed s.W := by
  have hlen : (s.bank b).words.length = 0 := (bank_words_length hs b).trans ((wc_eq_zero_iff s b).mpr hb)
  have hwords : (s.bank b).words = [] := List.eq_nil_of_length_eq_zero hlen
  have hcap : (s.bank b).cap = 0 := hb
  calc s.bank b = ⟨(s.bank b).cap, (s.bank b).words⟩ := rfl
    _ = Bank.unconstructed s.W := by rw [hcap, hwords, Bank.unconstructed]

/-- Writing back what a bank holds changes nothing. -/
theorem setBank_bank (s : State) (b : Nat) : s.setBank b (s.bank b) = s := by
  have hmem : s.mem.set b (s.bank b) = s.mem := by
    rcases Nat.lt_or_ge b s.mem.length with hb | hb
    · simp [State.bank, hb]
    · exact List.set_eq_of_length_le hb
  rw [State.setBank, hmem]

theorem bulkUnary_of_cap_zero {s : State} {rd : BankNumber} (hs : s.wf = true) (hrd : rd.toNat < s.inst.nbanks)
    (hcap : s.cap rd.toNat = 0) (f : BitVec s.W → BitVec s.W) :
    s.bulkUnary rd f = .next (s.send [.completion (completionRecord statusOk (handle rd))]) := by
  have hsame : (s.bank rd.toNat).mapWords f = s.bank rd.toNat := by rw [bank_of_cap_zero hs hcap]; rfl
  rw [State.bulkUnary, onReceiver_of_lt hrd, hsame, receive_eq, setBank_bank]

/-- A binary command with a bank of capacity 0 on either side changes nothing, and is OK if both sides are. -/
theorem bulkBinary_of_cap_zero {s : State} {rd rs : BankNumber} (hs : s.wf = true) (hrd : rd.toNat < s.inst.nbanks)
    (hrs : rs.toNat < s.inst.nbanks) (hcap : s.cap rd.toNat = 0 ∨ s.cap rs.toNat = 0)
    (f : BitVec s.W → BitVec s.W → BitVec s.W) :
    ∃ data, s.bulkBinary rd rs f = .next (s.send [.completion (completionRecord
      (if s.cap rd.toNat = 0 ∧ s.cap rs.toNat = 0 then 0x00 else 0x02) data)]) := by
  have hwc : s.wc rd.toNat = s.wc rs.toNat ↔ s.cap rd.toNat = 0 ∧ s.cap rs.toNat = 0 := by
    rw [← wc_eq_zero_iff, ← wc_eq_zero_iff] at *
    omega
  rcases bulkBinary_cases s rd rs f with ⟨-, -, heq, h⟩ | ⟨-, -, hne, h⟩ | ⟨habsent, -⟩
  · obtain ⟨hd, hsrc⟩ := hwc.mp heq
    have hsame : (s.bank rd.toNat).zipWords f (s.bank rs.toNat) = s.bank rd.toNat := by
      rw [bank_of_cap_zero hs hd, bank_of_cap_zero hs hsrc]; rfl
    rw [hsame, setBank_bank] at h
    exact ⟨_, by rw [h, if_pos ⟨hd, hsrc⟩]; rfl⟩
  · exact ⟨_, by rw [h, if_neg (mt hwc.mpr hne)]; rfl⟩
  · omega

/-- A command whose meaning is unary and bulk does nothing to a bank of capacity 0. -/
theorem bulkUnary_unconstructed {s : State} {i : Instr} {rd : BankNumber} {f : BitVec s.W → BitVec s.W}
    (hs : s.wf = true) (hrd : rd.toNat < s.inst.nbanks) (hcap : s.cap rd.toNat = 0)
    (hi : exec i s = s.bulkUnary rd f) :
    SameStores s (after i s) ∧ replyStatus (reply i s) = some 0x00 := by
  have h := hi.trans (bulkUnary_of_cap_zero hs hrd hcap f)
  exact ⟨sameStores_after_of_send h, by rw [reply_of_send h]; exact replyStatus_record _ _⟩

theorem bulkBinary_unconstructed {s : State} {i : Instr} {rd rs : BankNumber} {f : BitVec s.W → BitVec s.W → BitVec s.W}
    (hs : s.wf = true) (hrd : rd.toNat < s.inst.nbanks) (hrs : rs.toNat < s.inst.nbanks)
    (hcap : s.cap rd.toNat = 0 ∨ s.cap rs.toNat = 0) (hi : exec i s = s.bulkBinary rd rs f) :
    SameStores s (after i s) ∧
      replyStatus (reply i s) = some (if s.cap rd.toNat = 0 ∧ s.cap rs.toNat = 0 then 0x00 else 0x02) := by
  obtain ⟨data, h⟩ := bulkBinary_of_cap_zero hs hrd hrs hcap f
  have h := hi.trans h
  exact ⟨sameStores_after_of_send h, by rw [reply_of_send h]; exact replyStatus_record _ _⟩

theorem get_of_cap_zero {s : State} {rd : BankNumber} (hrd : rd.toNat < s.inst.nbanks) (hcap : s.cap rd.toNat = 0)
    (idx : Immediate) : replyStatus (reply (.get rd idx) s) = some 0x01 := by
  rcases execGet_cases rd idx s with ⟨-, hlt, -⟩ | ⟨-, -, h⟩ | ⟨habsent, -⟩
  · simp [hcap] at hlt
  · rw [reply_of_send (i := .get rd idx) h]; exact replyStatus_record _ _
  · omega

theorem set_of_cap_zero {s : State} {rd : BankNumber} (hrd : rd.toNat < s.inst.nbanks) (hcap : s.cap rd.toNat = 0)
    (idx : Immediate) (bit : Bool) : replyStatus (reply (.set rd idx bit) s) = some 0x01 := by
  rcases execSet_cases rd idx bit s with ⟨-, hlt, -⟩ | ⟨-, -, h⟩ | ⟨habsent, -⟩
  · simp [hcap] at hlt
  · rw [reply_of_send (i := .set rd idx bit) h]; exact replyStatus_record _ _
  · omega

theorem bytes_of_cap_zero {s : State} {rd : BankNumber} (hrd : rd.toNat < s.inst.nbanks) (hcap : s.cap rd.toNat = 0) :
    reply (.bytes rd) s = [.completion 0] := by
  rcases execBytes_cases rd s with ⟨-, h⟩ | ⟨habsent, -⟩
  · rw [(wc_eq_zero_iff s rd.toNat).mpr hcap, Nat.zero_mul] at h
    exact reply_of_send h
  · omega

theorem iter_of_cap_zero {s : State} {rd : BankNumber} (hrd : rd.toNat < s.inst.nbanks) (hcap : s.cap rd.toNat = 0) :
    reply (.iter rd) s = [.completion 0] := by
  rcases execIter_cases rd s with ⟨-, h⟩ | ⟨habsent, -⟩
  · have hbits : (s.bank rd.toNat).logicalBits = [] := by
      rw [State.cap] at hcap
      rw [Bank.logicalBits, hcap]; rfl
    rw [hbits, hcap, send_send] at h
    exact reply_of_send h
  · omega

/-- COPY gives its destination the capacity of its source. -/
theorem cap_after_copy {s : State} {rd rs : BankNumber} (hs : s.wf = true) (hrd : rd.toNat < s.inst.nbanks)
    (hrs : rs.toNat < s.inst.nbanks) : (after (.copy rd rs) s).cap rd.toNat = s.cap rs.toNat := by
  obtain ⟨-, hlen, -⟩ := (state_wf_iff s).mp hs
  rcases execCopy_cases rd rs s with ⟨-, -, h⟩ | ⟨habsent, -⟩
  · rw [after_of_exec (i := .copy rd rs) h, cap_send, cap_setBank, if_pos ⟨rfl, hlen ▸ hrd⟩]; rfl
  · omega

/-! The statements. -/

/-- Settles O19: a case of `step_cases` each for reset, waiting, idling and a word. -/
theorem everyStepKeepsTheInvariant : Obligations.EveryStepKeepsTheInvariant := by
  intro s t hinv hstep
  rcases step_cases s with ⟨-, h⟩ | ⟨-, -, h⟩ | ⟨-, -, -, h⟩ | ⟨w, rest, -, hready, -, h⟩
  · obtain rfl : s.afterReset = t := by simpa [h] using hstep
    exact afterReset_inv ((inv_iff s).mp hinv).1
  · obtain rfl : s.hostTurn = t := by simpa [h] using hstep
    exact hostTurn_inv hinv
  · obtain rfl : s.hostTurn = t := by simpa [h] using hstep
    exact hostTurn_inv hinv
  · exact runWord_inv (hostTurn_inv hinv) hready (h.symm.trans hstep)

/-- Settles O48: every effect of a command leaves the other banks alone. -/
theorem onlyTheReceiverChanges : Obligations.OnlyTheReceiverChanges := by
  intro i s
  obtain ⟨t, hexec, heffect⟩ := exec_effect i s
  exact ⟨t, hexec, heffect.sameOtherStores⟩

/-- Settles O49: only reset and a word that runs can change a capacity. -/
theorem capacityIsWrittenOnlyByInitCopyAndReset : Obligations.CapacityIsWrittenOnlyByInitCopyAndReset := by
  intro s t b hstep hb
  rcases step_cases s with ⟨hreset, -⟩ | ⟨-, -, h⟩ | ⟨-, -, -, h⟩ | ⟨w, rest, -, -, hcmd, h⟩
  · exact .inl hreset
  · obtain rfl : s.hostTurn = t := by simpa [h] using hstep
    exact absurd rfl hb
  · obtain rfl : s.hostTurn = t := by simpa [h] using hstep
    exact absurd rfl hb
  · obtain ⟨i, hi⟩ := runWord_of_cap_ne (h.symm.trans hstep) hb
    exact .inr ⟨w, rest, i, by simp [hcmd], hi⟩

/-- Settles O51: one lemma per command, or per shape of command. -/
theorem unconstructedBankIsAStoreOfZeroBits : Obligations.UnconstructedBankIsAStoreOfZeroBits := by
  intro s rd rs n bit hs hrd hrs hcap
  refine ⟨get_of_cap_zero hrd hcap n, set_of_cap_zero hrd hcap n bit, ?_, ?_, bytes_of_cap_zero hrd hcap,
    iter_of_cap_zero hrd hcap, (cap_after_copy hs hrs hrd).trans hcap⟩
  · intro i hi
    obtain ⟨f, hf⟩ : ∃ f, exec i s = s.bulkUnary rd f := by
      simp only [List.mem_cons, List.not_mem_nil, or_false] at hi
      rcases hi with rfl | rfl | rfl | rfl <;> exact ⟨_, rfl⟩
    exact bulkUnary_unconstructed hs hrd hcap hf
  · intro i hi
    obtain ⟨f, hf⟩ : ∃ f, exec i s = s.bulkBinary rd rs f ∨ exec i s = s.bulkBinary rs rd f := by
      simp only [List.mem_cons, List.not_mem_nil, or_false] at hi
      rcases hi with rfl | rfl | rfl | rfl | rfl | rfl
      exacts [⟨_, .inl rfl⟩, ⟨_, .inl rfl⟩, ⟨_, .inl rfl⟩, ⟨_, .inr rfl⟩, ⟨_, .inr rfl⟩, ⟨_, .inr rfl⟩]
    rcases hf with hf | hf
    · simpa only [hcap, true_and] using bulkBinary_unconstructed hs hrd hrs (.inl hcap) hf
    · simpa only [hcap, and_true] using bulkBinary_unconstructed hs hrs hrd (.inr hcap) hf

/-- Settles O17: every bank of the reset state is the unconstructed one. -/
theorem resetLeavesEveryBankUnconstructed : Obligations.ResetLeavesEveryBankUnconstructed := by
  intro p b
  have hcap : (State.resetOf p).cap b = 0 := by rw [State.cap, bank_resetOf]; rfl
  exact ⟨hcap, (wc_eq_zero_iff _ b).mpr hcap, by rw [State.wordVals, bank_resetOf]; rfl⟩

/-- Settles O18: the default engine is a legal one. -/
theorem resetMeetsTheInvariant : Obligations.ResetMeetsTheInvariant :=
  ⟨resetOf_inv (p := instDefault) (by decide), fun _ => resetOf_inv⟩

/-- T8 with ten logical bits, all 0, in bank 0, and the padding bit of slot 10 set. -/
def paddingState : State :=
  { State.resetOf instT8 with
    mem := [⟨10, [0x00, 0x20]⟩, Bank.unconstructed 8, Bank.unconstructed 8, Bank.unconstructed 8] }

/-- Settles O36: in `paddingState`, LSHIFT by 2 moves slot 10 to index 8. -/
theorem lshiftBringsPaddingIntoView : Obligations.LshiftBringsPaddingIntoView :=
  ⟨paddingState, by decide, by decide, by decide, by decide, by decide⟩

end Sys2Proof.Machine
end

section
/-! PROOF. The memory family: where a bit stands (R31 to R33), what repeating a command does (R39), and that the words of a
run are answered in order, whatever stands on the ports (R42, R62). -/

namespace Sys2Proof.Machine

/-! No command reads the ports (R42). -/

/-- The same stores, with other ports. -/
abbrev State.withPorts (s : State) (p : Ports) : State := { s with ports := p }

/-- The state in which a command answered: its banks are `m`, and on the ports `p` it sent `ts`. -/
abbrev State.answered (s : State) (m : Memory s.W) (ts : List Transfer) (p : Ports) : State :=
  { s with mem := m, ports := { p with sent := p.sent ++ ts } }

/-- Of two results, from `s` and from `s` with the ports `p`: they make the same stores and send the same stream bits and
the same record. -/
def AnswersAlike (s : State) (p : Ports) (x y : Result) : Prop :=
  ∃ (m : Memory s.W) (bits : List Bool) (r : CompletionRecord),
    x = .next (s.answered m (bits.map .stream ++ [.completion r]) s.ports) ∧
    y = .next (s.answered m (bits.map .stream ++ [.completion r]) p)

section
variable {s : State} {p : Ports}

theorem AnswersAlike.raise (e : ErrorKind) : AnswersAlike s p (s.raise e) ((s.withPorts p).raise e) :=
  ⟨s.mem, [], _, rfl, rfl⟩

theorem AnswersAlike.complete (d : Immediate) : AnswersAlike s p (s.complete d) ((s.withPorts p).complete d) :=
  ⟨s.mem, [], _, rfl, rfl⟩

theorem AnswersAlike.setBank (b : Nat) (x : Bank s.W) (d : Immediate) :
    AnswersAlike s p ((s.setBank b x).complete d) (((s.withPorts p).setBank b x).complete d) :=
  ⟨s.mem.set b x, [], _, rfl, rfl⟩

theorem AnswersAlike.emit (bits : List Bool) (d : Immediate) :
    AnswersAlike s p ((s.emit bits).complete d) (((s.withPorts p).emit bits).complete d) :=
  ⟨s.mem, bits, _, congrArg Host.Outcome.next (send_send s _ _),
    congrArg Host.Outcome.next (send_send (s.withPorts p) _ _)⟩

theorem AnswersAlike.ite {x y x' y' : Result} (c : Prop) [Decidable c] (h : AnswersAlike s p x y)
    (h' : AnswersAlike s p x' y') : AnswersAlike s p (if c then x else x') (if c then y else y') := by
  split
  · exact h
  · exact h'

/-- The bank range of R56 is checked on the stores alone. -/
theorem AnswersAlike.onReceiver (rd : BankNumber) {f g : Bank s.W → Result}
    (h : ∀ x, AnswersAlike s p (f x) (g x)) :
    AnswersAlike s p (s.onReceiver rd f) ((s.withPorts p).onReceiver rd g) :=
  .ite (s.hasBank rd = true) (h _) (.raise _)

theorem AnswersAlike.onPair (rd rs : BankNumber) {f g : Bank s.W → Bank s.W → Result}
    (h : ∀ x y, AnswersAlike s p (f x y) (g x y)) :
    AnswersAlike s p (s.onPair rd rs f) ((s.withPorts p).onPair rd rs g) :=
  .ite ((s.hasBank rd && s.hasBank rs) = true) (h _ _) (.raise _)

theorem AnswersAlike.indexed (rd : BankNumber) (idx : Immediate) {f g : Bank s.W → Nat → Result}
    (h : ∀ x k, AnswersAlike s p (f x k) (g x k)) :
    AnswersAlike s p (s.indexed rd idx f) ((s.withPorts p).indexed rd idx g) :=
  .onReceiver rd fun _ => .ite _ (.raise _) (h _ _)

theorem AnswersAlike.bulkUnary (rd : BankNumber) (f : BitVec s.W → BitVec s.W) :
    AnswersAlike s p (s.bulkUnary rd f) ((s.withPorts p).bulkUnary rd f) :=
  .onReceiver rd fun _ => .setBank _ _ _

theorem AnswersAlike.bulkBinary (rd rs : BankNumber) (f : BitVec s.W → BitVec s.W → BitVec s.W) :
    AnswersAlike s p (s.bulkBinary rd rs f) ((s.withPorts p).bulkBinary rd rs f) :=
  .onPair rd rs fun _ _ => .ite _ (.setBank _ _ _) (.raise _)

end

/-- No command's meaning depends on what stands on the ports. -/
theorem exec_answersAlike (i : Instr) (s : State) (p : Ports) :
    AnswersAlike s p (exec i s) (exec i (s.withPorts p)) := by
  cases i with
  | init rd cap => exact .onReceiver rd fun _ => .ite _ (.raise _) (.setBank _ _ _)
  | get rd idx => exact .indexed rd idx fun _ _ => .complete _
  | set rd idx bit => exact .indexed rd idx fun _ _ => .setBank _ _ _
  | and rd rs => exact .bulkBinary rd rs _
  | or rd rs => exact .bulkBinary rd rs _
  | xor rd rs => exact .bulkBinary rd rs _
  | not rd => exact .bulkUnary rd _
  | lshift rd num => exact .bulkUnary rd _
  | rshift rd num => exact .bulkUnary rd _
  | copy rd rs => exact .onPair rd rs fun _ _ => .setBank _ _ _
  | fill rd bit => exact .bulkUnary rd _
  | bytes rd => exact .onReceiver rd fun _ => .complete _
  | iter rd => exact .onReceiver rd fun _ => .emit _ _

theorem runWord_answersAlike (w : CommandWord) (s : State) (p : Ports) :
    AnswersAlike s p (runWord exec w s) (runWord exec w (s.withPorts p)) := by
  cases h : decode w with
  | ok i => simpa only [runWord, h] using exec_answersAlike i s p
  | error e => simpa only [runWord, h] using AnswersAlike.raise .illegalCommand

/-- A command's reply is the same whatever stands on the ports. -/
theorem reply_withPorts (i : Instr) (s : State) (p : Ports) : reply i (s.withPorts p) = reply i s := by
  obtain ⟨m, bits, r, hs, hp⟩ := exec_answersAlike i s p
  rw [reply_of_sent hs rfl, reply_of_sent hp rfl]

theorem wordAfter_of_runWord {w : CommandWord} {s t : State} (h : runWord exec w s = .next t) : wordAfter w s = t := by
  simp only [wordAfter, h]

/-- The first of some replies, and the others from the state after it. -/
theorem wordReplies_cons {w : CommandWord} {s : State} {m : Memory s.W} {ts : List Transfer} {p : Ports}
    (h : runWord exec w (s.withPorts p) = .next (s.answered m ts p)) (ws : List CommandWord) :
    wordReplies (w :: ws) (s.withPorts p) = ts :: wordReplies ws (s.answered m ts p) := by
  rw [wordReplies, wordAfter_of_runWord h, List.drop_left]

/-- The replies to a list of words are the same whatever stands on the ports at its start. -/
theorem wordReplies_withPorts (ws : List CommandWord) (s : State) (p : Ports) :
    wordReplies ws (s.withPorts p) = wordReplies ws s := by
  induction ws generalizing s p with
  | nil => rfl
  | cons w ws ih =>
    obtain ⟨m, bits, r, hs, hp⟩ := runWord_answersAlike w s p
    calc wordReplies (w :: ws) (s.withPorts p)
        = _ :: wordReplies ws (s.answered m _ p) := wordReplies_cons hp ws
      _ = _ :: wordReplies ws (s.answered m _ s.ports) := by rw [← ih (s.answered m _ s.ports)]
      _ = wordReplies (w :: ws) s := (wordReplies_cons (p := s.ports) hs ws).symm

/-! The step, and runs (R42, R62). -/

/-- At a ready state the oldest offered word is taken and run. -/
theorem step_of_ready {s : State} {w : CommandWord} {rest : List CommandWord} (hready : s.ready = true)
    (hcmd : s.ports.cmd = w :: rest) : step s = runWord exec w (s.hostTurn.takeCommand rest) := by
  obtain ⟨hreset, hwaiting⟩ := (ready_iff s).mp hready
  rcases step_cases s with ⟨h, -⟩ | ⟨-, h, -⟩ | ⟨-, -, h, -⟩ | ⟨w', rest', -, -, h, hstep⟩
  · simp [hreset] at h
  · simp [hwaiting] at h
  · simp [hcmd] at h
  · obtain ⟨rfl, rfl⟩ : w = w' ∧ rest = rest' := by simpa [hcmd] using h
    exact hstep

theorem core_run_succ {s t : State} (h : step s = .next t) (n : Nat) : core.run (n + 1) s = core.run n t := by
  have hcore : core.step s = .next t := h
  simp only [Host.Core.run, hcore]

/-- `Taken w rest s u ts`: in going from `s` to `u`, the host still taking, the engine took `w`, left `rest` offered, and
sent `ts` and nothing else; `ts` is the reply to `w`, and later words are answered from `u` as they are after `w` from `s`. -/
structure Taken (w : CommandWord) (rest : List CommandWord) (s u : State) (ts : List Transfer) : Prop where
  resetIn : u.ports.resetIn = false
  hostTakes : u.ports.hostTakes = true
  cmd : u.ports.cmd = rest
  taken : u.ports.taken = s.ports.taken + 1
  sent : u.ports.sent = s.ports.sent ++ ts
  replies : ∀ ws, wordReplies (w :: ws) s = ts :: wordReplies ws u

/-- A step of an engine whose host takes takes the oldest word, and answers it with stream bits and one record. -/
theorem step_taken {s : State} {w : CommandWord} {rest : List CommandWord} (hreset : s.ports.resetIn = false)
    (htakes : s.ports.hostTakes = true) (hcmd : s.ports.cmd = w :: rest) :
    ∃ (u : State) (bits : List Bool) (r : CompletionRecord), step s = .next u ∧
      Taken w rest s u (bits.map .stream ++ [.completion r]) := by
  have hready : s.ready = true := (ready_iff s).mpr ⟨hreset, not_waiting_of_hostTakes htakes⟩
  obtain ⟨m, bits, r, hs, hrun⟩ := runWord_answersAlike w s (s.hostTurn.takeCommand rest).ports
  refine ⟨_, bits, r, (step_of_ready hready hcmd).trans hrun, ?_⟩
  exact {
    resetIn := by simp [hreset]
    hostTakes := by simp [htakes]
    cmd := rfl
    taken := by simp
    sent := by simp
    replies := fun ws => by
      rw [← wordReplies_withPorts (w :: ws) s (s.hostTurn.takeCommand rest).ports]
      exact wordReplies_cons hrun ws }

/-! Repeating a command (R39). -/

/-- A query only sends. -/
theorem exec_query {i : Instr} (s : State) (hi : i.mnemonic ∈ [.GET, .BYTES, .ITER]) :
    ∃ ts, exec i s = .next (s.send ts) := by
  cases i with
  | get rd idx =>
    rcases execGet_cases rd idx s with ⟨-, -, h⟩ | ⟨-, -, h⟩ | ⟨-, h⟩ <;> exact ⟨_, h⟩
  | bytes rd =>
    rcases execBytes_cases rd s with ⟨-, h⟩ | ⟨-, h⟩ <;> exact ⟨_, h⟩
  | iter rd =>
    rcases execIter_cases rd s with ⟨-, h⟩ | ⟨-, h⟩
    · exact ⟨_, h.trans (congrArg _ (send_send s _ _))⟩
    · exact ⟨_, h⟩
  | _ => simp [Instr.mnemonic] at hi

/-- Where a command only sends, doing it again only sends too. -/
theorem sameStores_again_of_send {i : Instr} {s : State} {ts : List Transfer} (h : exec i s = .next (s.send ts)) :
    SameStores (after i s) (after i (after i s)) := by
  obtain ⟨m, bits, r, hs, hagain⟩ := exec_answersAlike i s (s.send ts).ports
  obtain ⟨us, htwice⟩ : ∃ us, after i (after i s) = s.answered m us (s.send ts).ports := by
    rw [after_of_exec h]
    exact ⟨_, after_of_exec hagain⟩
  rw [htwice, after_of_exec hs]
  exact ⟨rfl, fun _ => ⟨rfl, rfl⟩⟩

/-- Writing an idempotent function of a word a second time changes nothing. -/
theorem setWord_again {W : Nat} (x : Bank W) (k : Nat) {g : BitVec W → BitVec W} (hg : ∀ u, g (g u) = g u) :
    (x.setWord k (g (x.word k))).setWord k (g ((x.setWord k (g (x.word k))).word k)) = x.setWord k (g (x.word k)) := by
  by_cases hk : k < x.words.length
  · rw [word_setWord, if_pos ⟨rfl, hk⟩, hg]
    simp [Bank.setWord]
  · simp [Bank.setWord, List.set_eq_of_length_le (Nat.not_lt.mp hk)]

theorem writeBit_writeBit {W : Nat} (x : Bank W) (i : Nat) (v : Bool) :
    (x.writeBit i v).writeBit i v = x.writeBit i v := by
  refine setWord_again x (wordIndex W i) (g := fun u => if v then u ||| bitMask W i else u &&& ~~~(bitMask W i)) ?_
  intro u
  cases v
  · simp [BitVec.and_assoc]
  · simp [BitVec.or_assoc]

/-- What SET, FILL and INIT make of their receiver when they succeed, in words of any width. -/
def overwrite (i : Instr) (W : Nat) (x : Bank W) : Bank W :=
  match i with
  | .set _ idx bit => x.writeBit idx.toNat bit
  | .fill _ bit => x.mapWords fun _ => fillWord W bit
  | .init _ cap => Bank.fresh W cap
  | _ => x

theorem overwrite_overwrite (i : Instr) {W : Nat} (x : Bank W) :
    overwrite i W (overwrite i W x) = overwrite i W x := by
  cases i with
  | set rd idx bit => exact writeBit_writeBit x _ _
  | fill rd bit => simp [overwrite, Bank.mapWords]
  | _ => rfl

/-- SET, FILL and INIT only send, or overwrite their receiver. -/
theorem exec_overwrite {i : Instr} (s : State) (hi : i.mnemonic ∈ [.SET, .FILL, .INIT]) :
    ∃ ts, exec i s = .next (s.send ts) ∨
      exec i s = .next ((s.setBank i.rd.toNat (overwrite i s.W (s.bank i.rd.toNat))).send ts) := by
  cases i with
  | set rd idx bit =>
    rcases execSet_cases rd idx bit s with ⟨-, -, h⟩ | ⟨-, -, h⟩ | ⟨-, h⟩
    exacts [⟨_, .inr h⟩, ⟨_, .inl h⟩, ⟨_, .inl h⟩]
  | fill rd bit =>
    rcases bulkUnary_cases s rd fun _ => fillWord s.W bit with ⟨-, h⟩ | ⟨-, h⟩
    exacts [⟨_, .inr h⟩, ⟨_, .inl h⟩]
  | init rd cap =>
    rcases execInit_cases rd cap s with ⟨-, -, h⟩ | ⟨-, -, h⟩ | ⟨-, h⟩
    exacts [⟨_, .inr h⟩, ⟨_, .inl h⟩, ⟨_, .inl h⟩]
  | _ => simp [Instr.mnemonic] at hi

/-- Writing an idempotent function of a bank's store a second time changes nothing. -/
theorem setBank_again (s : State) (b : Nat) {f : Bank s.W → Bank s.W} (hf : ∀ x, f (f x) = f x) :
    (s.setBank b (f (s.bank b))).setBank b (f ((s.setBank b (f (s.bank b))).bank b)) = s.setBank b (f (s.bank b)) := by
  by_cases hb : b < s.mem.length
  · rw [bank_setBank, if_pos ⟨rfl, hb⟩, hf]
    simp [State.setBank]
  · simp [State.setBank, List.set_eq_of_length_le (Nat.not_lt.mp hb)]

/-- Doing SET, FILL or INIT again sends only, or writes back what the receiver holds. -/
theorem sameStores_again_of_overwrite {i : Instr} (s : State) (hi : i.mnemonic ∈ [.SET, .FILL, .INIT]) :
    SameStores (after i s) (after i (after i s)) := by
  obtain ⟨ts, h | h⟩ := exec_overwrite s hi
  · exact sameStores_again_of_send h
  · rw [after_of_exec h]
    obtain ⟨us, hagain | hagain⟩ := exec_overwrite (State.send _ ts) hi
    · exact sameStores_after_of_send hagain
    · rw [after_of_exec hagain]
      have hsame := setBank_again s i.rd.toNat (f := overwrite i s.W) (overwrite_overwrite i)
      have hsent := congrArg (fun u : State => (u.send ts).send us) hsame
      exact hsent ▸ sameStores_send _ us

/-- T8 with one word of one bit set in banks 0 and 1, which NOT, XOR and the shifts move or clear. -/
def oneBitState : State :=
  { State.resetOf instT8 with mem := [⟨8, [0x04]⟩, ⟨8, [0x04]⟩, Bank.unconstructed 8, Bank.unconstructed 8] }

/-! Bounds and bit positions (R31 to R33). -/

/-- A command that is an indexed access, and is OK inside the bounds, raises IndexOutOfRange exactly outside them. -/
theorem replyStatus_indexed_iff {s : State} {i : Instr} {rd : BankNumber} {idx : Immediate}
    {run : Bank s.W → Nat → Result} (hrd : rd.toNat < s.inst.nbanks) (hi : exec i s = s.indexed rd idx run)
    (hrun : ∃ t data, run (s.bank rd.toNat) idx.toNat = .next t ∧
      t.ports.sent = s.ports.sent ++ [.completion (completionRecord statusOk data)]) :
    replyStatus (reply i s) = some 0x01 ↔ (s.cap rd.toNat).toNat ≤ idx.toNat := by
  rcases indexed_cases s rd idx run with ⟨-, hlt, h⟩ | ⟨-, hle, h⟩ | ⟨habsent, -⟩
  · obtain ⟨t, data, hnext, hsent⟩ := hrun
    rw [reply_of_sent (hi.trans (h.trans hnext)) hsent, replyStatus_record]
    simp [statusOk, hlt]
  · rw [reply_of_send (hi.trans h), replyStatus_record]
    simp [ErrorKind.code, hle]
  · omega

/-! The host takes one transfer (R61). -/

/-- Taking a transfer takes the oldest one owed and counts it. -/
theorem takeTransfer_eq_some_iff (s t : State) (x : Transfer) :
    s.takeTransfer = some (x, t) ↔
      s.owed.head? = some x ∧ { s with ports := { s.ports with delivered := s.ports.delivered + 1 } } = t := by
  unfold State.takeTransfer
  cases s.owed <;> simp

/-! The statements. -/

/-- Settles O25: GET and SET are both indexed accesses. -/
theorem boundsCheckIsOnTheCapacityInBits : Obligations.BoundsCheckIsOnTheCapacityInBits := by
  intro s rd idx _ hrd
  refine ⟨?_, fun bit => ?_, fun hlt => ?_⟩
  · exact replyStatus_indexed_iff (run := fun x k => s.complete (bitData (x.readBit k))) hrd rfl ⟨_, _, rfl, rfl⟩
  · exact replyStatus_indexed_iff (run := fun x k => (s.setBank rd.toNat (x.writeBit k bit)).complete 0) hrd rfl
      ⟨_, _, rfl, rfl⟩
  · exact wordIndex_lt_wordCount (width_pos s.inst) (s.bank rd.toNat) hlt

/-- Settles O50: the four commands that are not idempotent are shown on `oneBitState`. -/
theorem readsRepeatAndSomeWritesAreIdempotent : Obligations.ReadsRepeatAndSomeWritesAreIdempotent := by
  refine ⟨fun i s hi => ?_, fun i s hi => sameStores_again_of_overwrite s hi, fun i hi => ?_⟩
  · obtain ⟨ts, h⟩ := exec_query s hi
    refine ⟨sameStores_after_of_send h, ?_⟩
    rw [after_of_exec h]
    exact reply_withPorts i s (s.send ts).ports
  · refine ⟨oneBitState, by decide, fun hsame => ?_⟩
    have hwords := (hsame.2 0).2
    simp only [List.mem_cons, List.not_mem_nil, or_false] at hi
    rcases hi with rfl | rfl | rfl | rfl
    · exact absurd hwords (by decide)
    · exact absurd hwords (by decide)
    · exact absurd hwords (by decide)
    · exact absurd hwords (by decide)

/-- Settles O52, by induction on the number of steps. -/
theorem runAnswersEveryCommandInOrder : Obligations.RunAnswersEveryCommandInOrder := by
  intro s n hreset htakes hn
  induction n generalizing s with
  | zero => exact ⟨s, rfl, rfl, rfl, by simp [wordReplies], rfl, by simp [wordReplies]⟩
  | succ n ih =>
    obtain ⟨w, rest, hcmd⟩ := List.exists_cons_of_length_pos (Nat.lt_of_lt_of_le n.succ_pos hn)
    obtain ⟨u, bits, r, hstep, hu⟩ := step_taken hreset htakes hcmd
    have hrest : n ≤ u.ports.cmd.length := by
      rw [hcmd, List.length_cons] at hn
      rw [hu.cmd]
      omega
    obtain ⟨t, hrun, htcmd, httaken, htsent, hlength, hone⟩ := ih u hu.resetIn hu.hostTakes hrest
    rw [hu.cmd] at htcmd htsent hlength hone
    rw [hcmd, List.take_succ_cons, hu.replies]
    refine ⟨t, (core_run_succ hstep n).trans hrun, htcmd, ?_, ?_, ?_, ?_⟩
    · rw [httaken, hu.taken]
      omega
    · rw [htsent, hu.sent, List.flatten_cons, List.append_assoc]
    · rw [List.length_cons, hlength]
    · intro q hq
      rcases List.mem_cons.mp hq with rfl | hq
      · exact ⟨by simp [completionsOf], r, by simp⟩
      · exact hone q hq

/-- Settles O6: `step_of_ready`, the word being a command. -/
theorem stepRunsDecodedCommand : Obligations.StepRunsDecodedCommand := by
  intro s w rest i hready hcmd hdecode
  rw [step_of_ready hready hcmd]
  simp only [runWord, hdecode]

/-- Settles O16: what is owed is what is sent past the count of what is delivered. -/
theorem hostTakesTransfersInOrder : Obligations.HostTakesTransfersInOrder := by
  intro s t x h
  obtain ⟨hhead, rfl⟩ := (takeTransfer_eq_some_iff s t x).mp h
  refine ⟨?_, ⟨rfl, fun _ => ⟨rfl, rfl⟩⟩, rfl, rfl⟩
  have htail : s.owed.tail = s.ports.sent.drop (s.ports.delivered + 1) := List.tail_drop
  exact (List.cons_head?_tail hhead).symm.trans (congrArg (x :: ·) htail)

/-- Settles O26: ReadBit is the bit at its position, and a word's bits are those of its number. -/
theorem slotIsMostSignificantBitFirst : Obligations.SlotIsMostSignificantBitFirst := by
  intro s b i
  rw [State.slot, readBit_eq_getLsbD (width_pos s.inst)]
  rfl

end Sys2Proof.Machine
end

section
/-! PROOF. The encoding family: the decoder, the encoder and the opcode map agree on every word (R50 to R57), the assembly
reads back (R64), and every word, legal or not, gets one completion record (R58, R60). -/

namespace Sys2Proof.Machine

/-! The fields of a word as parts of its number (R50). -/

theorem toNat_append_eq_add {m n : Nat} (x : BitVec m) (y : BitVec n) :
    (x ++ y).toNat = x.toNat * 2 ^ n + y.toNat := by
  rw [BitVec.toNat_append, ← Nat.shiftLeft_add_eq_or_of_lt y.isLt, Nat.shiftLeft_eq]

theorem opOf_toNat (w : CommandWord) : (opOf w).toNat = w.toNat / 2 ^ 56 := by
  have := w.isLt
  rw [opOf, BitVec.extractLsb'_toNat, Nat.shiftRight_eq_div_pow]
  omega

theorem rdOf_toNat (w : CommandWord) : (rdOf w).toNat = w.toNat / 2 ^ 52 % 16 := by
  rw [rdOf, BitVec.extractLsb'_toNat, Nat.shiftRight_eq_div_pow]

theorem rsOf_toNat (w : CommandWord) : (rsOf w).toNat = w.toNat / 2 ^ 48 % 16 := by
  rw [rsOf, BitVec.extractLsb'_toNat, Nat.shiftRight_eq_div_pow]

theorem zOf_toNat (w : CommandWord) : (zOf w).toNat = w.toNat / 2 ^ 33 % 2 ^ 15 := by
  rw [zOf, BitVec.extractLsb'_toNat, Nat.shiftRight_eq_div_pow]

theorem bOf_toNat (w : CommandWord) : (bOf w).toNat = w.toNat / 2 ^ 32 % 2 := by
  rw [bOf, ← BitVec.testBit_toNat, Nat.toNat_testBit]

theorem immOf_toNat (w : CommandWord) : (immOf w).toNat = w.toNat % 2 ^ 32 := by
  rw [immOf, BitVec.extractLsb'_toNat, Nat.shiftRight_zero]

/-- A word is its six fields. -/
theorem word_eq_iff_fields (w v : CommandWord) :
    w = v ↔ opOf w = opOf v ∧ rdOf w = rdOf v ∧ rsOf w = rsOf v ∧ zOf w = zOf v ∧ bOf w = bOf v ∧ immOf w = immOf v := by
  constructor
  · rintro rfl
    simp
  · rintro ⟨hop, hrd, hrs, hz, hb, himm⟩
    apply_fun BitVec.toNat at hop hrd hrs hz himm
    apply_fun Bool.toNat at hb
    rw [opOf_toNat, opOf_toNat] at hop
    rw [rdOf_toNat, rdOf_toNat] at hrd
    rw [rsOf_toNat, rsOf_toNat] at hrs
    rw [zOf_toNat, zOf_toNat] at hz
    rw [bOf_toNat, bOf_toNat] at hb
    rw [immOf_toNat, immOf_toNat] at himm
    apply BitVec.eq_of_toNat_eq
    omega

/-- `word & mask = match` is one such equation for each field. -/
theorem and_eq_iff_fields (w mask v : CommandWord) :
    w &&& mask = v ↔ opOf w &&& opOf mask = opOf v ∧ rdOf w &&& rdOf mask = rdOf v ∧ rsOf w &&& rsOf mask = rsOf v ∧
      zOf w &&& zOf mask = zOf v ∧ (bOf w && bOf mask) = bOf v ∧ immOf w &&& immOf mask = immOf v := by
  rw [word_eq_iff_fields]
  simp only [opOf, rdOf, rsOf, zOf, bOf, immOf, BitVec.extractLsb'_and, BitVec.getLsbD_and]

/-- The number of an assembled word (R50). -/
theorem assembleFields_toNat (op : BitVec 8) (rd rs : BankNumber) (b : Bool) (imm : Immediate) :
    (assembleFields op rd rs b imm).toNat =
      op.toNat * 2 ^ 56 + rd.toNat * 2 ^ 52 + rs.toNat * 2 ^ 48 + b.toNat * 2 ^ 32 + imm.toNat := by
  change BitVec.toNat (w := 8 + 4 + 4 + 15 + 1 + 32) (op ++ rd ++ rs ++ 0#15 ++ BitVec.ofBool b ++ imm) = _
  rw [toNat_append_eq_add, toNat_append_eq_add, toNat_append_eq_add, toNat_append_eq_add, toNat_append_eq_add,
    BitVec.toNat_ofBool, BitVec.toNat_ofNat, Nat.zero_mod]
  omega

section
variable (op : BitVec 8) (rd rs : BankNumber) (b : Bool) (imm : Immediate)

theorem rdOf_assembleFields : rdOf (assembleFields op rd rs b imm) = rd := by
  apply BitVec.eq_of_toNat_eq
  rw [rdOf_toNat, assembleFields_toNat]
  have := b.toNat_lt
  omega

theorem rsOf_assembleFields : rsOf (assembleFields op rd rs b imm) = rs := by
  apply BitVec.eq_of_toNat_eq
  rw [rsOf_toNat, assembleFields_toNat]
  have := b.toNat_lt
  omega

theorem bOf_assembleFields : bOf (assembleFields op rd rs b imm) = b := by
  have hbit : (bOf (assembleFields op rd rs b imm)).toNat = b.toNat := by
    have := b.toNat_lt
    rw [bOf_toNat, assembleFields_toNat]
    omega
  simpa only [Bool.ofNat_toNat] using congrArg Bool.ofNat hbit

theorem immOf_assembleFields : immOf (assembleFields op rd rs b imm) = imm := by
  apply BitVec.eq_of_toNat_eq
  rw [immOf_toNat, assembleFields_toNat]
  omega

end

/-- The one word of a command, field by field (R57). -/
theorem encode_eq_assembleFields (i : Instr) :
    encode i = assembleFields (opcode i.mnemonic) i.rd i.rs i.bit i.imm := by
  cases i <;> rfl

/-! The rows of the opcode map by the fields they use (R52, R54). -/

/-- The commands that use field RS. -/
def usesRs (m : Mnemonic) : Bool := decide (m ∈ [.AND, .OR, .XOR, .COPY])

/-- The commands that use field B. -/
def usesB (m : Mnemonic) : Bool := decide (m ∈ [.SET, .FILL])

/-- The commands that use field IMM. -/
def usesImm (m : Mnemonic) : Bool := decide (m ∈ [.INIT, .GET, .SET, .LSHIFT, .RSHIFT])

/-- The command of a row with the given fields, of which it takes those that it uses. -/
def commandOf (m : Mnemonic) (rd rs : BankNumber) (b : Bool) (imm : Immediate) : Instr :=
  match m with
  | .INIT => .init rd imm
  | .GET => .get rd imm
  | .SET => .set rd imm b
  | .AND => .and rd rs
  | .OR => .or rd rs
  | .XOR => .xor rd rs
  | .NOT => .not rd
  | .LSHIFT => .lshift rd imm
  | .RSHIFT => .rshift rd imm
  | .COPY => .copy rd rs
  | .FILL => .fill rd b
  | .BYTES => .bytes rd
  | .ITER => .iter rd

theorem commandOf_fields (i : Instr) : commandOf i.mnemonic i.rd i.rs i.bit i.imm = i := by
  cases i <;> rfl

/-- `IsRow m w`: the word is one of row `m`, its opcode the row's and every field that the row does not use zero
(R52, R54, R55). -/
structure IsRow (m : Mnemonic) (w : CommandWord) : Prop where
  op : opOf w = opcode m
  z : zOf w = 0#15
  rs : usesRs m = false → rsOf w = 0#4
  b : usesB m = false → bOf w = false
  imm : usesImm m = false → immOf w = 0#32

/-- The command that a word of row `m` stands for. -/
def rowCommand (m : Mnemonic) (w : CommandWord) : Instr := commandOf m (rdOf w) (rsOf w) (bOf w) (immOf w)

theorem rowCommand_mnemonic (m : Mnemonic) (w : CommandWord) : (rowCommand m w).mnemonic = m := by
  cases m <;> rfl

theorem isRow_encode (i : Instr) : IsRow i.mnemonic (encode i) := by
  rw [encode_eq_assembleFields]
  exact {
    op := Laws.opOf_assembleFields _ _ _ _ _
    z := Laws.zOf_assembleFields _ _ _ _ _
    rs := by rw [rsOf_assembleFields]; cases i <;> simp [usesRs, Instr.mnemonic, Instr.rs]
    b := by rw [bOf_assembleFields]; cases i <;> simp [usesB, Instr.mnemonic, Instr.bit]
    imm := by rw [immOf_assembleFields]; cases i <;> simp [usesImm, Instr.mnemonic, Instr.imm] }

theorem rowCommand_encode (i : Instr) : rowCommand i.mnemonic (encode i) = i := by
  rw [encode_eq_assembleFields, rowCommand, rdOf_assembleFields, rsOf_assembleFields, bOf_assembleFields,
    immOf_assembleFields, commandOf_fields]

/-- A word of a row is the one word of the command it stands for. -/
theorem encode_rowCommand {m : Mnemonic} {w : CommandWord} (h : IsRow m w) : encode (rowCommand m w) = w := by
  rw [encode_eq_assembleFields, word_eq_iff_fields, Laws.opOf_assembleFields, Laws.zOf_assembleFields,
    rdOf_assembleFields, rsOf_assembleFields, bOf_assembleFields, immOf_assembleFields, rowCommand_mnemonic]
  obtain ⟨hop, hz, hrs, hb, himm⟩ := h
  refine ⟨hop.symm, ?_, ?_, hz.symm, ?_, ?_⟩
  · cases m <;> rfl
  · cases m with
    | AND | OR | XOR | COPY => rfl
    | _ => exact (hrs rfl).symm
  · cases m with
    | SET | FILL => rfl
    | _ => exact (hb rfl).symm
  · cases m with
    | INIT | GET | SET | LSHIFT | RSHIFT => rfl
    | _ => exact (himm rfl).symm

/-! The decoder, row by row (R53 to R55, R57). -/

theorem whenClear_eq_ok_iff (clear : Bool) (i j : Instr) : whenClear clear i = .ok j ↔ clear = true ∧ i = j := by
  cases clear <;> simp [whenClear]

/-- On a word with a row's opcode and field Z zero, decode checks the fields that the row does not use. -/
theorem decode_of_opcode {m : Mnemonic} {w : CommandWord} (hop : opOf w = opcode m) (hz : zOf w = 0#15) :
    decode w = whenClear ((usesRs m || rsClear w) && (usesB m || bClear w) && (usesImm m || immClear w))
      (rowCommand m w) := by
  rw [decode, if_neg (not_not_intro hz), hop]
  cases m <;> simp [opcode, usesRs, usesB, usesImm, rowCommand, commandOf]

/-- Decode accepts only words with the opcode of a row and field Z zero. -/
theorem opcode_of_decode_ok {w : CommandWord} {i : Instr} (h : decode w = .ok i) :
    zOf w = 0#15 ∧ ∃ m, opOf w = opcode m := by
  unfold decode at h
  split at h
  · cases h
  · next hz =>
    simp only [BitVec.toNat_eq (x := opOf w)]
    refine ⟨not_not.mp hz, ?_⟩
    split at h
    exacts [⟨.INIT, ‹_›⟩, ⟨.GET, ‹_›⟩, ⟨.SET, ‹_›⟩, ⟨.AND, ‹_›⟩, ⟨.OR, ‹_›⟩, ⟨.XOR, ‹_›⟩, ⟨.NOT, ‹_›⟩, ⟨.LSHIFT, ‹_›⟩,
      ⟨.RSHIFT, ‹_›⟩, ⟨.COPY, ‹_›⟩, ⟨.FILL, ‹_›⟩, ⟨.BYTES, ‹_›⟩, ⟨.ITER, ‹_›⟩, nomatch h]

/-- The check of R54 is what a row asks beside its opcode and Z. -/
theorem unusedClear_iff_isRow {m : Mnemonic} {w : CommandWord} (hop : opOf w = opcode m) (hz : zOf w = 0#15) :
    ((usesRs m || rsClear w) && (usesB m || bClear w) && (usesImm m || immClear w)) = true ↔ IsRow m w := by
  simp only [Bool.and_eq_true, Bool.or_eq_true, rsClear, bClear, immClear, beq_iff_eq, Bool.not_eq_true', and_assoc]
  constructor
  · rintro ⟨hrs, hb, himm⟩
    exact ⟨hop, hz, fun h => hrs.resolve_left (by simp [h]), fun h => hb.resolve_left (by simp [h]),
      fun h => himm.resolve_left (by simp [h])⟩
  · rintro ⟨-, -, hrs, hb, himm⟩
    exact ⟨Bool.eq_false_or_eq_true _ |>.imp_right hrs, Bool.eq_false_or_eq_true _ |>.imp_right hb,
      Bool.eq_false_or_eq_true _ |>.imp_right himm⟩

/-- Decode answers a command exactly for the words of its row, and the one that the word stands for. -/
theorem decode_eq_ok_iff (w : CommandWord) (i : Instr) :
    decode w = .ok i ↔ IsRow i.mnemonic w ∧ rowCommand i.mnemonic w = i := by
  constructor
  · intro h
    obtain ⟨hz, m, hop⟩ := opcode_of_decode_ok h
    rw [decode_of_opcode hop hz, whenClear_eq_ok_iff, unusedClear_iff_isRow hop hz] at h
    obtain ⟨hrow, rfl⟩ := h
    rw [rowCommand_mnemonic]
    exact ⟨hrow, rfl⟩
  · rintro ⟨hrow, hi⟩
    rw [decode_of_opcode hrow.op hrow.z, whenClear_eq_ok_iff, unusedClear_iff_isRow hrow.op hrow.z]
    exact ⟨hrow, hi⟩

theorem exists_decode_iff_isRow (w : CommandWord) (m : Mnemonic) :
    (∃ i, decode w = .ok i ∧ i.mnemonic = m) ↔ IsRow m w := by
  simp only [decode_eq_ok_iff]
  constructor
  · rintro ⟨i, ⟨hrow, -⟩, rfl⟩
    exact hrow
  · intro hrow
    have hm := rowCommand_mnemonic m w
    exact ⟨rowCommand m w, by rw [hm]; exact ⟨hrow, rfl⟩, hm⟩

/-! The opcode map (R52). -/

/-- The mask of a row covers OP, Z and the fields that the row does not use, and its match value is the opcode and zeros. -/
theorem opcodeMap_fields : ∀ r ∈ opcodeMap,
    (opOf r.mask = BitVec.allOnes 8 ∧ rdOf r.mask = 0#4 ∧
      rsOf r.mask = (if usesRs r.mnemonic then 0#4 else BitVec.allOnes 4) ∧ zOf r.mask = BitVec.allOnes 15 ∧
      bOf r.mask = !usesB r.mnemonic ∧ immOf r.mask = if usesImm r.mnemonic then 0#32 else BitVec.allOnes 32) ∧
    r.value = assembleFields (opcode r.mnemonic) 0#4 0#4 false 0#32 := by
  decide

/-- A field that the mask covers unless it is used must be zero unless it is used. -/
theorem and_unusedMask_eq_zero_iff {n : Nat} (used : Bool) (x : BitVec n) :
    x &&& (if used then 0#n else BitVec.allOnes n) = 0#n ↔ (used = false → x = 0#n) := by
  cases used
  · rw [if_neg Bool.false_ne_true, BitVec.and_allOnes]
    simp
  · simp

theorem and_not_used_eq_false_iff (used b : Bool) : (b && !used) = false ↔ (used = false → b = false) := by
  cases used <;> simp

theorem and_mask_eq_value_iff_isRow {r : OpcodeRow} (hr : r ∈ opcodeMap) (w : CommandWord) :
    w &&& r.mask = r.value ↔ IsRow r.mnemonic w := by
  obtain ⟨⟨hop, hrd, hrs, hz, hb, himm⟩, hvalue⟩ := opcodeMap_fields r hr
  rw [and_eq_iff_fields, hop, hrd, hrs, hz, hb, himm, hvalue, Laws.opOf_assembleFields, Laws.zOf_assembleFields,
    rdOf_assembleFields, rsOf_assembleFields, bOf_assembleFields, immOf_assembleFields, BitVec.and_allOnes,
    BitVec.and_allOnes, and_unusedMask_eq_zero_iff, and_not_used_eq_false_iff, and_unusedMask_eq_zero_iff]
  constructor
  · rintro ⟨hop, -, hrs, hz, hb, himm⟩
    exact ⟨hop, hz, hrs, hb, himm⟩
  · rintro ⟨hop, hz, hrs, hb, himm⟩
    exact ⟨hop, BitVec.and_zero, hrs, hz, hb, himm⟩

/-! Statements on the encoding. -/

/-- Settles O1: a word of a row and the command it stands for are each other's. -/
theorem decodeIsInverseOfEncode : Obligations.DecodeIsInverseOfEncode := by
  intro w i
  rw [decode_eq_ok_iff]
  constructor
  · rintro ⟨hrow, hi⟩
    rw [← encode_rowCommand hrow, hi]
  · rintro rfl
    exact ⟨isRow_encode i, rowCommand_encode i⟩

/-- Settles O2: both sides say that the word is one of the row. -/
theorem decodeAgreesWithMaskAndMatch : Obligations.DecodeAgreesWithMaskAndMatch := by
  intro w r hr
  rw [and_mask_eq_value_iff_isRow hr, exists_decode_iff_isRow]

/-- Settles O3: a command's word is its fields assembled. -/
theorem encodedWordHoldsItsFields : Obligations.EncodedWordHoldsItsFields := by
  intro i
  rw [encode_eq_assembleFields, assembleFields_toNat]

/-- Settles O4: each word is the one of its command, and the last has a bit of Z set. -/
theorem sampleWordsDecode : Obligations.SampleWordsDecode := by
  unfold Obligations.SampleWordsDecode
  decide

/-! The assembler (R64). -/

theorem asmBank_toNat (b : BankNumber) : asmBank b.toNat = some b := by
  have hb : b.toNat ≤ 15 := Nat.le_of_lt_succ b.isLt
  rw [asmBank, if_pos hb, BitVec.ofNat_toNat, BitVec.setWidth_eq]

theorem asmNumber_toNat (n : Immediate) : asmNumber n.toNat = some n := by
  have hn : n.toNat ≤ 2 ^ 32 - 1 := Nat.le_of_lt_succ n.isLt
  rw [asmNumber, if_pos hn, BitVec.ofNat_toNat, BitVec.setWidth_eq]

theorem asmBit_toNat (v : Bool) : asmBit v.toNat = some v := by
  cases v <;> rfl

/-- Settles O5: each operand is read back as written. -/
theorem assemblerReadsBackEveryCommand : Obligations.AssemblerReadsBackEveryCommand := by
  intro i
  cases i <;>
    simp only [disassemble, assemble, asmBankNumber, asmBankBank, asmBankBit, asmBankNumberBit, asmBank_toNat,
      asmNumber_toNat, asmBit_toNat, Option.map_some]

/-! Words that are no command (R53 to R56). -/

/-- IllegalCommand: no store changes, and the record has ST 0x03 and DATA 0. -/
theorem answers_raise_illegalCommand (s : State) :
    ∃ t, s.raise .illegalCommand = .next t ∧ SameStores s t ∧ Answers s t [] 0x03 0 :=
  ⟨_, rfl, sameStores_send s _, by simp [Answers, State.send, completionRecord, ErrorKind.code]⟩

/-- At a ready state, a word that is of no row raises IllegalCommand. -/
theorem step_of_not_isRow {s : State} {w : CommandWord} {rest : List CommandWord} (hready : s.ready = true)
    (hcmd : s.ports.cmd = w :: rest) (hw : ∀ m, ¬ IsRow m w) :
    ∃ t, step s = .next t ∧ SameStores s t ∧ Answers (s.hostTurn.takeCommand rest) t [] 0x03 0 := by
  rw [step_of_ready hready hcmd, runWord]
  cases hdecode : decode w with
  | ok i => exact absurd ((decode_eq_ok_iff w i).mp hdecode).1 (hw _)
  | error e => exact answers_raise_illegalCommand (s.hostTurn.takeCommand rest)

theorem IsRow.opcode_eq {m : Mnemonic} {w : CommandWord} (h : IsRow m w) :
    w.toNat / 2 ^ 56 = (opcode m).toNat := by
  rw [← opOf_toNat, h.op]

theorem opcode_range (m : Mnemonic) : 1 ≤ (opcode m).toNat ∧ (opcode m).toNat ≤ 0x0D := by
  cases m <;> decide

theorem usesRs_iff_opcode (m : Mnemonic) : usesRs m = true ↔ (opcode m).toNat ∈ [0x04, 0x05, 0x06, 0x0A] := by
  cases m <;> decide

theorem usesB_iff_opcode (m : Mnemonic) : usesB m = true ↔ (opcode m).toNat ∈ [0x03, 0x0B] := by
  cases m <;> decide

theorem usesImm_iff_opcode (m : Mnemonic) :
    usesImm m = true ↔ (opcode m).toNat ∈ [0x01, 0x02, 0x03, 0x08, 0x09] := by
  cases m <;> decide

/-- Settles O7: the opcodes of the rows are 0x01 to 0x0D. -/
theorem reservedOpcodeRaisesIllegalCommand : Obligations.ReservedOpcodeRaisesIllegalCommand := by
  intro s w rest hready hcmd hop
  refine step_of_not_isRow hready hcmd fun m hrow => ?_
  have := opcode_range m
  rw [hrow.opcode_eq] at hop
  omega

/-- Settles O8: a row's word has zero in every field that the row does not use. -/
theorem unusedFieldRaisesIllegalCommand : Obligations.UnusedFieldRaisesIllegalCommand := by
  intro s w rest hready hcmd hunused
  refine step_of_not_isRow hready hcmd fun m hrow => ?_
  rw [hrow.opcode_eq, ← usesRs_iff_opcode, ← usesB_iff_opcode, ← usesImm_iff_opcode, Bool.not_eq_true,
    Bool.not_eq_true, Bool.not_eq_true, ← rsOf_toNat, ← bOf_toNat, ← immOf_toNat] at hunused
  rcases hunused with ⟨hne, huse⟩ | ⟨hne, huse⟩ | ⟨hne, huse⟩
  · exact hne (by rw [hrow.rs huse]; rfl)
  · exact hne (by rw [hrow.b huse]; rfl)
  · exact hne (by rw [hrow.imm huse]; rfl)

/-- Settles O9: field Z of a row's word is zero. -/
theorem reservedBitsRaiseIllegalCommand : Obligations.ReservedBitsRaiseIllegalCommand := by
  intro s w rest hready hcmd hz
  refine step_of_not_isRow hready hcmd fun m hrow => hz ?_
  rw [← zOf_toNat, hrow.z]
  rfl

theorem bulkUnary_checks_receiver (s : State) (rd : BankNumber) (f : BitVec s.W → BitVec s.W) :
    ∃ run, s.bulkUnary rd f = s.onReceiver rd run := ⟨_, rfl⟩

theorem bulkBinary_checks_pair (s : State) (rd rs : BankNumber) (f : BitVec s.W → BitVec s.W → BitVec s.W) :
    ∃ run, s.bulkBinary rd rs f = s.onPair rd rs run := ⟨_, rfl⟩

theorem indexed_checks_receiver (s : State) (rd : BankNumber) (idx : Immediate) (run : Bank s.W → Nat → Result) :
    ∃ run', s.indexed rd idx run = s.onReceiver rd run' := ⟨_, rfl⟩

/-- Every command checks its banks before anything else: RD alone, or RD and RS where it uses RS (R56, R106). -/
theorem exec_checks_banks (i : Instr) (s : State) :
    (∃ run, exec i s = s.onPair i.rd i.rs run) ∨
      (usesRs i.mnemonic = false ∧ ∃ run, exec i s = s.onReceiver i.rd run) := by
  unfold exec
  cases i with
  | and | or | xor => exact .inl (bulkBinary_checks_pair s _ _ _)
  | copy => exact .inl ⟨_, rfl⟩
  | get | set => exact .inr ⟨rfl, indexed_checks_receiver s _ _ _⟩
  | not | lshift | rshift | fill => exact .inr ⟨rfl, bulkUnary_checks_receiver s _ _⟩
  | init | bytes | iter => exact .inr ⟨rfl, _, rfl⟩

/-- Settles O10: the check of the banks comes before everything else a command does. -/
theorem absentBankRaisesIllegalCommand : Obligations.AbsentBankRaisesIllegalCommand := by
  intro s i habsent
  rcases exec_checks_banks i s with ⟨run, hexec⟩ | ⟨huse, run, hexec⟩
  · rcases onPair_cases s i.rd i.rs run with ⟨hrd, hrs, -⟩ | ⟨-, hraise⟩
    · omega
    · rw [hexec, hraise]
      exact answers_raise_illegalCommand s
  · rcases onReceiver_cases s i.rd run with ⟨hrd, -⟩ | ⟨-, hraise⟩
    · have hrs : i.mnemonic ∉ [.AND, .OR, .XOR, .COPY] := of_decide_eq_false huse
      rcases habsent with habsent | ⟨hmem, -⟩
      · omega
      · exact absurd hmem hrs
    · rw [hexec, hraise]
      exact answers_raise_illegalCommand s

/-! What a command sends (R58, R60, R61). -/

/-- DATA of a command that is OK (R60). -/
def okData (i : Instr) (s : State) : Immediate :=
  match i with
  | .get rd idx => bitData (s.slot rd.toNat idx.toNat)
  | .set _ _ _ => 0
  | .bytes rd => BitVec.ofNat 32 (s.wc rd.toNat * (s.W / 8))
  | .iter rd => s.cap rd.toNat
  | _ => handle i.rd

/-- The stream bits of a command that is OK (R61). -/
def okBits (i : Instr) (s : State) : List Bool :=
  match i with
  | .iter rd => (s.bank rd.toNat).logicalBits
  | _ => []

/-- `Sends i s r`: the result `r` of command `i` in `s` sent, and did nothing else on the ports, its stream bits and a record
that is OK, or the record of an error. -/
inductive Sends (i : Instr) (s : State) : Result → Prop where
  | ok (m : Memory s.W) :
      Sends i s (.next (State.send { s with mem := m }
        ((okBits i s).map .stream ++ [.completion (completionRecord statusOk (okData i s))])))
  | error (e : ErrorKind) : Sends i s (s.raise e)

section
variable {i : Instr} {s : State}

theorem Sends.onReceiver {rd : BankNumber} {run : Bank s.W → Result} (h : Sends i s (run (s.bank rd.toNat))) :
    Sends i s (s.onReceiver rd run) := by
  rcases onReceiver_cases s rd run with ⟨-, hrun⟩ | ⟨-, hrun⟩
  · exact hrun ▸ h
  · exact hrun ▸ .error _

theorem Sends.onPair {rd rs : BankNumber} {run : Bank s.W → Bank s.W → Result}
    (h : Sends i s (run (s.bank rd.toNat) (s.bank rs.toNat))) : Sends i s (s.onPair rd rs run) := by
  rcases onPair_cases s rd rs run with ⟨-, -, hrun⟩ | ⟨-, hrun⟩
  · exact hrun ▸ h
  · exact hrun ▸ .error _

theorem Sends.raiseIf {c : Prop} [Decidable c] {e : ErrorKind} {r : Result} (h : Sends i s r) :
    Sends i s (if c then s.raise e else r) := by
  split
  · exact .error e
  · exact h

theorem Sends.indexed {rd : BankNumber} {idx : Immediate} {run : Bank s.W → Nat → Result}
    (h : Sends i s (run (s.bank rd.toNat) idx.toNat)) : Sends i s (s.indexed rd idx run) :=
  .onReceiver (.raiseIf h)

theorem Sends.bulkUnary {rd : BankNumber} {f : BitVec s.W → BitVec s.W} (h : ∀ x, Sends i s (s.receive rd x)) :
    Sends i s (s.bulkUnary rd f) :=
  .onReceiver (h _)

theorem Sends.bulkBinary {rd rs : BankNumber} {f : BitVec s.W → BitVec s.W → BitVec s.W}
    (h : ∀ x, Sends i s (s.receive rd x)) : Sends i s (s.bulkBinary rd rs f) := by
  refine .onPair ?_
  rw [← ite_not]
  exact .raiseIf (h _)

end

/-- What every command sends, in every state. -/
theorem exec_sends (i : Instr) (s : State) : Sends i s (exec i s) := by
  unfold exec
  cases i with
  | init rd cap => exact .onReceiver (.raiseIf (.ok _))
  | get rd idx => exact .indexed (.ok s.mem)
  | set rd idx bit => exact .indexed (.ok _)
  | and rd rs | or rd rs | xor rd rs => exact .bulkBinary fun _ => .ok _
  | not rd | lshift rd num | rshift rd num | fill rd bit => exact .bulkUnary fun _ => .ok _
  | copy rd rs => exact .onPair (.ok _)
  | bytes rd => exact .onReceiver (.ok s.mem)
  | iter rd =>
    refine .onReceiver ?_
    rw [State.emit, complete_eq, send_send]
    exact .ok s.mem

theorem okBits_eq_nil_or_iter (i : Instr) (s : State) : okBits i s = [] ∨ ∃ rd, i = .iter rd := by
  cases i with
  | iter rd => exact .inr ⟨rd, rfl⟩
  | _ => exact .inl rfl

/-- On the ports: some stream bits, from ITER only, and then one record. -/
theorem Sends.answers {i : Instr} {s : State} {r : Result} (h : Sends i s r) :
    ∃ t bits st data, r = .next t ∧ Answers s t bits st data ∧ (bits ≠ [] → ∃ rd, i = .iter rd) := by
  cases h with
  | ok m =>
    exact ⟨_, okBits i s, statusOk, okData i s, rfl, by simp [Answers, State.send, completionRecord],
      (okBits_eq_nil_or_iter i s).resolve_left⟩
  | error e => exact ⟨_, [], e.code, 0, rfl, by simp [Answers, State.send, completionRecord], by simp⟩

/-- Settles O12: a word runs the command it decodes to, or raises IllegalCommand. -/
theorem oneCompletionForEveryWord : Obligations.OneCompletionForEveryWord := by
  intro s w rest hready hcmd
  rw [step_of_ready hready hcmd]
  rcases runWord_cases w (s.hostTurn.takeCommand rest) with ⟨i, hdecode, hrun⟩ | ⟨e, -, hrun⟩
  · obtain ⟨t, bits, st, data, hnext, hanswers, hiter⟩ := (exec_sends i (s.hostTurn.takeCommand rest)).answers
    refine ⟨t, bits, st, data, hrun.trans hnext, hanswers, fun hbits => ?_⟩
    obtain ⟨rd, rfl⟩ := hiter hbits
    exact ⟨rd, hdecode⟩
  · obtain ⟨t, hnext, -, hanswers⟩ := answers_raise_illegalCommand (s.hostTurn.takeCommand rest)
    exact ⟨t, [], 0x03, 0, hrun.trans hnext, hanswers, by simp⟩

/-- The one record of a command's reply: OK with the command's DATA, or an error's code with DATA 0. -/
theorem completionsOf_reply (i : Instr) (s : State) :
    completionsOf (reply i s) = [completionRecord statusOk (okData i s)] ∨
      ∃ e : ErrorKind, completionsOf (reply i s) = [completionRecord e.code 0] := by
  have h := exec_sends i s
  generalize hexec : exec i s = r at h
  cases h with
  | ok m =>
    rw [reply_of_sent hexec rfl, completionsOf_append, completionsOf_map_stream]
    exact .inl rfl
  | error e =>
    rw [reply_of_send hexec]
    exact .inr ⟨e, rfl⟩

theorem statusOk_eq_zero : statusOk = 0x00 := rfl

theorem code_ne_zero (e : ErrorKind) : e.code ≠ 0x00 := by
  cases e <;> decide

theorem handle_toNat (b : BankNumber) : (handle b).toNat = b.toNat :=
  BitVec.toNat_setWidth_of_le (by decide)

theorem bitData_toNat (v : Bool) : (bitData v).toNat = if v then 1 else 0 := by
  cases v <;> rfl

/-- The bytes of a store are at most `2^32 / W * (W / 8)`, so their number fits DATA (R7, R96). -/
theorem bytes_lt {s : State} (hs : s.wf = true) (b : Nat) : s.wc b * (s.W / 8) < 2 ^ 32 := by
  obtain ⟨hlegal, -⟩ := (state_wf_iff s).mp hs
  obtain ⟨-, -, -, hmax⟩ := (legal_iff s.inst).mp hlegal
  have hwords : s.wc b ≤ 2 ^ 32 / s.W := (wc_le_maxWords hs b).trans hmax
  have hbits : s.wc b * s.W ≤ 2 ^ 32 := (Nat.le_div_iff_mul_le (width_pos s.inst)).mp hwords
  have hbytes : s.wc b * (s.W / 8) * 8 ≤ s.wc b * s.W := by
    rw [Nat.mul_assoc]
    exact Nat.mul_le_mul_left _ (Nat.div_mul_le_self _ 8)
  omega

/-- Settles O47: DATA of each command when it is OK, in its own terms; an error's record has DATA 0. -/
theorem dataByCommand : Obligations.DataByCommand := by
  intro i s hs
  rcases completionsOf_reply i s with h | ⟨e, h⟩
  · refine ⟨_, h, ?_⟩
    rw [dataOf_completionRecord, statusOf_completionRecord, if_pos statusOk_eq_zero]
    cases i with
    | get rd idx => rw [okData, bitData_toNat, slotIsMostSignificantBitFirst]
    | set rd idx bit => rfl
    | bytes rd => rw [okData, BitVec.toNat_ofNat, Nat.mod_eq_of_lt (bytes_lt hs rd.toNat)]
    | iter rd => rfl
    | _ => exact handle_toNat _
  · refine ⟨_, h, ?_⟩
    rw [dataOf_completionRecord, statusOf_completionRecord, if_neg (code_ne_zero e)]
    rfl

end Sys2Proof.Machine
end

section
/-! PROOF. The construction family: INIT (R80), what a fresh store reads as, and that what is read does not depend on the
word width (R81). -/

namespace Sys2Proof.Machine

/-! INIT (R80). -/

theorem readBit_fresh {W : Nat} (hW : 0 < W) (cap : Immediate) (k : Nat) : (Bank.fresh W cap).readBit k = false := by
  rw [readBit_eq_getLsbD hW, word_fresh, BitVec.getLsbD_zero]

/-- A refused INIT only sends CapacityRange (R105). -/
theorem exec_init_of_refused {s : State} {rd : BankNumber} {cap : Immediate} (hrd : rd.toNat < s.inst.nbanks)
    (hcap : capacityRefused s.inst cap = true) :
    exec (.init rd cap) s = .next (s.send [.completion (completionRecord (ErrorKind.code .capacityRange) 0)]) := by
  rcases execInit_cases rd cap s with ⟨-, hok, -⟩ | ⟨-, -, h⟩ | ⟨habsent, -⟩
  · rw [hok] at hcap; contradiction
  · exact h
  · omega

theorem exec_init_of_accepted {s : State} {rd : BankNumber} {cap : Immediate} (hrd : rd.toNat < s.inst.nbanks)
    (hcap : capacityRefused s.inst cap = false) :
    exec (.init rd cap) s = .next ((s.setBank rd.toNat (Bank.fresh s.W cap)).send
      [.completion (completionRecord statusOk (handle rd))]) := by
  rcases execInit_cases rd cap s with ⟨-, -, h⟩ | ⟨-, hrefused, -⟩ | ⟨habsent, -⟩
  · exact h
  · rw [hrefused] at hcap; contradiction
  · omega

/-- Ports as they were, and then one record sent. -/
theorem answers_send {s u : State} (h : u.ports = s.ports) (st : StatusCode) (data : Immediate) :
    Answers s (u.send [.completion (completionRecord st data)]) [] st data := by
  simp [Answers, State.send, completionRecord, h]

/-! What the queries send, in terms of the state's slots (R83, R96, R97). -/

theorem reply_get {s : State} {rd : BankNumber} {idx : Immediate} (hrd : rd.toNat < s.inst.nbanks)
    (hidx : idx.toNat < (s.cap rd.toNat).toNat) :
    reply (.get rd idx) s = [.completion (completionRecord statusOk (bitData (s.slot rd.toNat idx.toNat)))] := by
  rcases execGet_cases rd idx s with ⟨-, -, h⟩ | ⟨-, hle, -⟩ | ⟨habsent, -⟩
  · exact reply_of_send (i := .get rd idx) h
  · omega
  · omega

theorem reply_bytes {s : State} {rd : BankNumber} (hrd : rd.toNat < s.inst.nbanks) :
    reply (.bytes rd) s =
      [.completion (completionRecord statusOk (BitVec.ofNat 32 (s.wc rd.toNat * (s.W / 8))))] := by
  rcases execBytes_cases rd s with ⟨-, h⟩ | ⟨habsent, -⟩
  · exact reply_of_send (i := .bytes rd) h
  · omega

theorem reply_iter {s : State} {rd : BankNumber} (hrd : rd.toNat < s.inst.nbanks) :
    reply (.iter rd) s =
      ((List.range (s.cap rd.toNat).toNat).map (s.slot rd.toNat)).map .stream ++
        [.completion (completionRecord statusOk (s.cap rd.toNat))] := by
  rcases execIter_cases rd s with ⟨-, h⟩ | ⟨habsent, -⟩
  · rw [send_send] at h
    exact reply_of_send (i := .iter rd) h
  · omega

/-- A record that is OK is its DATA as a number (R58, R59). -/
theorem completionRecord_ok (d : Immediate) : completionRecord statusOk d = BitVec.ofNat 64 d.toNat := by
  have hd := d.isLt
  apply BitVec.eq_of_toNat_eq
  rw [completionRecord_toNat, BitVec.toNat_ofNat, Nat.mod_eq_of_lt (by omega)]
  simp [statusOk]

theorem after_wf {i : Instr} {s : State} (hs : s.wf = true) : (after i s).wf = true := by
  obtain ⟨t, hexec, heffect⟩ := exec_effect i s
  rw [after_of_exec hexec]
  exact heffect.wf hs

/-- `t` is a well-formed state of engine `p`, and its bank `b` a store of `cap` bits with every slot 0. -/
structure ReadsZero (t : State) (p : Instance) (b : Nat) (cap : Immediate) : Prop where
  wf : t.wf = true
  inst : t.inst = p
  cap : t.cap b = cap
  slot : ∀ k, t.slot b k = false

theorem readsZero_after_init {s : State} {rd : BankNumber} {cap : Immediate} (hs : s.wf = true)
    (hrd : rd.toNat < s.inst.nbanks) (hcap : capacityRefused s.inst cap = false) :
    ReadsZero (after (.init rd cap) s) s.inst rd.toNat cap := by
  obtain ⟨-, hlen, -⟩ := (state_wf_iff s).mp hs
  have hrd' : rd.toNat = rd.toNat ∧ rd.toNat < s.mem.length := ⟨rfl, hlen ▸ hrd⟩
  have hafter := after_of_exec (exec_init_of_accepted hrd hcap)
  refine ⟨after_wf hs, ?_, ?_, fun k => ?_⟩
  · rw [hafter]; rfl
  · rw [hafter, cap_send, cap_setBank, if_pos hrd', fresh_cap]
  · rw [hafter, slot_send, slot_setBank, if_pos hrd', readBit_fresh (width_pos s.inst)]

/-! Two banks of any widths (R81). -/

/-- The two banks hold the same logical bits: equal capacities, and equal bits in every slot that both have. -/
structure Agree {V W : Nat} (x : Bank V) (y : Bank W) : Prop where
  cap : x.cap = y.cap
  slot : ∀ k, k < x.wordCount * V → k < y.wordCount * W → x.readBit k = y.readBit k

theorem sameLogical_iff (s t : State) :
    SameLogical s t ↔ s.inst.nbanks = t.inst.nbanks ∧ ∀ b, Agree (s.bank b) (t.bank b) :=
  ⟨fun ⟨hbanks, hstores⟩ => ⟨hbanks, fun b => ⟨(hstores b).1, (hstores b).2⟩⟩,
    fun ⟨hbanks, hagree⟩ => ⟨hbanks, fun b => ⟨(hagree b).cap, (hagree b).slot⟩⟩⟩

/-- A logical bit stands in a slot of the bank's words. -/
theorem lt_slots_of_lt_cap {W : Nat} (hW : 0 < W) (x : Bank W) {k : Nat} (hk : k < x.cap.toNat) :
    k < x.wordCount * W :=
  (Nat.div_lt_iff_lt_mul hW).mp (wordIndex_lt_wordCount hW x hk)

/-- Every slot of a well-formed bank stands in one of its words. -/
theorem wordIndex_lt_length {W n k : Nat} (hW : 0 < W) {x : Bank W} (hx : x.wf n = true) (hk : k < x.wordCount * W) :
    wordIndex W k < x.words.length := by
  rw [((wf_iff n x).mp hx).1]
  exact (Nat.div_lt_iff_lt_mul hW).mpr hk

/-- A function of words that acts on every bit by itself, as `φ`. -/
def Bitwise {W : Nat} (f : BitVec W → BitVec W) (φ : Bool → Bool) : Prop :=
  ∀ u p, p < W → (f u).getLsbD p = φ (u.getLsbD p)

/-- A function of two words that acts on every two bits by themselves, as `φ`. -/
def Bitwise₂ {W : Nat} (f : BitVec W → BitVec W → BitVec W) (φ : Bool → Bool → Bool) : Prop :=
  ∀ u v p, p < W → (f u v).getLsbD p = φ (u.getLsbD p) (v.getLsbD p)

theorem bitwise_not (W : Nat) : Bitwise (W := W) (fun u => ~~~u) Bool.not :=
  fun u p hp => by simp [hp]

theorem bitwise_fillWord (W : Nat) (bit : Bool) : Bitwise (fun _ => fillWord W bit) fun _ => bit :=
  fun _ p hp => by cases bit <;> simp [fillWord, hp]

theorem bitwise_and (W : Nat) : Bitwise₂ (W := W) (fun u v => u &&& v) Bool.and := fun _ _ _ _ => BitVec.getLsbD_and
theorem bitwise_or (W : Nat) : Bitwise₂ (W := W) (fun u v => u ||| v) Bool.or := fun _ _ _ _ => BitVec.getLsbD_or
theorem bitwise_xor (W : Nat) : Bitwise₂ (W := W) (fun u v => u ^^^ v) Bool.xor := fun _ _ _ _ => BitVec.getLsbD_xor

theorem readBit_mapWords {W k : Nat} {f : BitVec W → BitVec W} {φ : Bool → Bool} (hf : Bitwise f φ) (hW : 0 < W)
    {x : Bank W} (hk : wordIndex W k < x.words.length) : (x.mapWords f).readBit k = φ (x.readBit k) := by
  rw [readBit_eq_getLsbD hW, readBit_eq_getLsbD hW, word_mapWords f x hk]
  exact hf _ _ (bitPosition_lt hW k)

theorem readBit_zipWords {W k : Nat} {f : BitVec W → BitVec W → BitVec W} {φ : Bool → Bool → Bool}
    (hf : Bitwise₂ f φ) (hW : 0 < W) {x y : Bank W} (hx : wordIndex W k < x.words.length)
    (hy : wordIndex W k < y.words.length) : (x.zipWords f y).readBit k = φ (x.readBit k) (y.readBit k) := by
  rw [readBit_eq_getLsbD hW, readBit_eq_getLsbD hW, readBit_eq_getLsbD hW, word_zipWords f x y hx hy]
  exact hf _ _ _ (bitPosition_lt hW k)

theorem Agree.logicalBits {V W : Nat} (hV : 0 < V) (hW : 0 < W) {x : Bank V} {y : Bank W} (h : Agree x y) :
    x.logicalBits = y.logicalBits := by
  rw [Bank.logicalBits, Bank.logicalBits, ← h.cap]
  refine List.map_congr_left fun k hk => ?_
  have hx : k < x.cap.toNat := List.mem_range.mp hk
  exact h.slot k (lt_slots_of_lt_cap hV x hx) (lt_slots_of_lt_cap hW y (h.cap ▸ hx))

theorem Agree.fresh {V W : Nat} (hV : 0 < V) (hW : 0 < W) (cap : Immediate) :
    Agree (Bank.fresh V cap) (Bank.fresh W cap) :=
  ⟨rfl, fun k _ _ => by rw [readBit_fresh hV, readBit_fresh hW]⟩

section
variable {V W m n : Nat} (hV : 0 < V) (hW : 0 < W) {x : Bank V} {x' : Bank W}
  (hx : x.wf m = true) (hx' : x'.wf n = true) (h : Agree x x')
include hV hW hx hx' h

theorem Agree.writeBit (k : Nat) (bit : Bool) : Agree (x.writeBit k bit) (x'.writeBit k bit) := by
  refine ⟨h.cap, fun j hj hj' => ?_⟩
  by_cases hjk : j = k
  · subst hjk
    rw [readBit_writeBit_same hV x j bit (wordIndex_lt_length hV hx hj),
      readBit_writeBit_same hW x' j bit (wordIndex_lt_length hW hx' hj')]
  · rw [readBit_writeBit_other hV x k j bit hjk, readBit_writeBit_other hW x' k j bit hjk]
    exact h.slot j hj hj'

theorem Agree.mapWords {f : BitVec V → BitVec V} {g : BitVec W → BitVec W} {φ : Bool → Bool}
    (hf : Bitwise f φ) (hg : Bitwise g φ) : Agree (x.mapWords f) (x'.mapWords g) := by
  refine ⟨h.cap, fun j hj hj' => ?_⟩
  rw [readBit_mapWords hf hV (wordIndex_lt_length hV hx hj), readBit_mapWords hg hW (wordIndex_lt_length hW hx' hj'),
    h.slot j hj hj']

/-- With equal word counts on either side, every slot of the receiver is one of the other bank too. -/
theorem Agree.zipWords {y : Bank V} {y' : Bank W} (hy : y.wf m = true) (hy' : y'.wf n = true) (hyy : Agree y y')
    (hwc : x.wordCount = y.wordCount) (hwc' : x'.wordCount = y'.wordCount)
    {f : BitVec V → BitVec V → BitVec V} {g : BitVec W → BitVec W → BitVec W} {φ : Bool → Bool → Bool}
    (hf : Bitwise₂ f φ) (hg : Bitwise₂ g φ) : Agree (x.zipWords f y) (x'.zipWords g y') := by
  refine ⟨h.cap, fun j hj hj' => ?_⟩
  change j < x.wordCount * V at hj
  change j < x'.wordCount * W at hj'
  have hyj : j < y.wordCount * V := hwc ▸ hj
  have hyj' : j < y'.wordCount * W := hwc' ▸ hj'
  rw [readBit_zipWords hf hV (wordIndex_lt_length hV hx hj) (wordIndex_lt_length hV hy hyj),
    readBit_zipWords hg hW (wordIndex_lt_length hW hx' hj') (wordIndex_lt_length hW hy' hyj'),
    h.slot j hj hj', hyy.slot j hyj hyj']

end

/-! How a command ends, and what one that is OK makes of its receiver. -/

/-- What bank RD holds after a command that is OK, from what banks RD and RS held: `x` and `y`. -/
def received (i : Instr) {W : Nat} (x y : Bank W) : Bank W :=
  match i with
  | .init _ cap => Bank.fresh W cap
  | .set _ idx bit => x.writeBit idx.toNat bit
  | .and _ _ => x.zipWords (fun u v => u &&& v) y
  | .or _ _ => x.zipWords (fun u v => u ||| v) y
  | .xor _ _ => x.zipWords (fun u v => u ^^^ v) y
  | .not _ => x.mapWords fun u => ~~~u
  | .lshift _ num => x.mapWords (shiftWordLeft num.toNat)
  | .rshift _ num => x.mapWords (shiftWordRight num.toNat)
  | .copy _ _ => y
  | .fill _ bit => x.mapWords fun _ => fillWord W bit
  | .get _ _ | .bytes _ | .iter _ => x

/-- What the checks of an indexed or a binary command ask of banks RD and RS (R101, R102). -/
def Fits (i : Instr) {W : Nat} (x y : Bank W) : Prop :=
  match i with
  | .get _ idx | .set _ idx _ => idx.toNat < x.cap.toNat
  | .and _ _ | .or _ _ | .xor _ _ => x.wordCount = y.wordCount
  | _ => True

/-- The state after a command that is OK. -/
def State.succeeded (i : Instr) (s : State) : State :=
  (s.setBank i.rd.toNat (received i (s.bank i.rd.toNat) (s.bank i.rs.toNat))).send
    ((okBits i s).map .stream ++ [.completion (completionRecord statusOk (okData i s))])

/-- How command `i` ends in `s`: OK, its checks passed, or with an error. -/
inductive Ends (i : Instr) (s : State) : Prop where
  | ok (hfits : Fits i (s.bank i.rd.toNat) (s.bank i.rs.toNat)) (hexec : exec i s = .next (s.succeeded i))
  | error (e : ErrorKind) (hexec : exec i s = s.raise e)

/-- A command that is OK and leaves its receiver as it is only sends. -/
theorem query_ends {i : Instr} {s : State} (hfits : Fits i (s.bank i.rd.toNat) (s.bank i.rs.toNat))
    (hquery : received i (s.bank i.rd.toNat) (s.bank i.rs.toNat) = s.bank i.rd.toNat)
    (hexec : exec i s =
      .next (s.send ((okBits i s).map .stream ++ [.completion (completionRecord statusOk (okData i s))]))) :
    Ends i s :=
  .ok hfits (by rw [hexec, State.succeeded, hquery, setBank_bank])

theorem bulkUnary_ends {i : Instr} {s : State} (f : BitVec s.W → BitVec s.W) (hexec : exec i s = s.bulkUnary i.rd f)
    (hok : s.succeeded i = (s.setBank i.rd.toNat ((s.bank i.rd.toNat).mapWords f)).send
      [.completion (completionRecord statusOk (handle i.rd))])
    (hfits : Fits i (s.bank i.rd.toNat) (s.bank i.rs.toNat)) : Ends i s := by
  rcases bulkUnary_cases s i.rd f with ⟨-, h⟩ | ⟨-, h⟩
  · exact .ok hfits (by rw [hexec, h, hok])
  · exact .error _ (hexec.trans h)

theorem bulkBinary_ends {i : Instr} {s : State} (f : BitVec s.W → BitVec s.W → BitVec s.W)
    (hexec : exec i s = s.bulkBinary i.rd i.rs f)
    (hok : s.succeeded i = (s.setBank i.rd.toNat ((s.bank i.rd.toNat).zipWords f (s.bank i.rs.toNat))).send
      [.completion (completionRecord statusOk (handle i.rd))])
    (hfits : s.wc i.rd.toNat = s.wc i.rs.toNat → Fits i (s.bank i.rd.toNat) (s.bank i.rs.toNat)) : Ends i s := by
  rcases bulkBinary_cases s i.rd i.rs f with ⟨-, -, hwc, h⟩ | ⟨-, -, -, h⟩ | ⟨-, h⟩
  · exact .ok (hfits hwc) (by rw [hexec, h, hok])
  · exact .error _ (hexec.trans h)
  · exact .error _ (hexec.trans h)

/-- Every command, in every state, ends in one of the two ways. -/
theorem exec_ends (i : Instr) (s : State) : Ends i s := by
  cases i with
  | init rd cap =>
    rcases execInit_cases rd cap s with ⟨-, -, h⟩ | ⟨-, -, h⟩ | ⟨-, h⟩
    exacts [.ok trivial h, .error _ h, .error _ h]
  | get rd idx =>
    rcases execGet_cases rd idx s with ⟨-, hidx, h⟩ | ⟨-, -, h⟩ | ⟨-, h⟩
    exacts [query_ends hidx rfl h, .error _ h, .error _ h]
  | set rd idx bit =>
    rcases execSet_cases rd idx bit s with ⟨-, hidx, h⟩ | ⟨-, -, h⟩ | ⟨-, h⟩
    exacts [.ok hidx h, .error _ h, .error _ h]
  | and rd rs => exact bulkBinary_ends _ rfl rfl id
  | or rd rs => exact bulkBinary_ends _ rfl rfl id
  | xor rd rs => exact bulkBinary_ends _ rfl rfl id
  | not rd => exact bulkUnary_ends _ rfl rfl trivial
  | lshift rd num => exact bulkUnary_ends _ rfl rfl trivial
  | rshift rd num => exact bulkUnary_ends _ rfl rfl trivial
  | copy rd rs =>
    rcases execCopy_cases rd rs s with ⟨-, -, h⟩ | ⟨-, h⟩
    exacts [.ok trivial h, .error _ h]
  | fill rd bit => exact bulkUnary_ends _ rfl rfl trivial
  | bytes rd =>
    rcases execBytes_cases rd s with ⟨-, h⟩ | ⟨-, h⟩
    exacts [query_ends trivial rfl h, .error _ h]
  | iter rd =>
    rcases execIter_cases rd s with ⟨-, h⟩ | ⟨-, h⟩
    · rw [send_send] at h
      exact query_ends trivial rfl h
    · exact .error _ h

theorem reply_of_ok {i : Instr} {s : State} (h : exec i s = .next (s.succeeded i)) :
    reply i s = (okBits i s).map .stream ++ [.completion (completionRecord statusOk (okData i s))] :=
  reply_of_sent h rfl

theorem replyStatus_of_ok {i : Instr} {s : State} (h : exec i s = .next (s.succeeded i)) :
    replyStatus (reply i s) = some statusOk := by
  rw [reply_of_ok h, replyStatus, completionsOf_append, completionsOf_map_stream]
  exact replyStatus_record statusOk (okData i s)

theorem replyStatus_of_error {i : Instr} {s : State} {e : ErrorKind} (h : exec i s = s.raise e) :
    replyStatus (reply i s) = some e.code := by
  rw [reply_of_send h, replyStatus_record]

/-- Each error has its own status code (R59). -/
theorem code_injective {e e' : ErrorKind} (h : e.code = e'.code) : e = e' := by
  revert h
  cases e <;> cases e' <;> decide

/-- With the same status, a command is OK in both states or the same error in both (R59). -/
theorem ends_alike {i : Instr} {s t : State} (hstatus : replyStatus (reply i s) = replyStatus (reply i t)) :
    (Fits i (s.bank i.rd.toNat) (s.bank i.rs.toNat) ∧ Fits i (t.bank i.rd.toNat) (t.bank i.rs.toNat) ∧
      exec i s = .next (s.succeeded i) ∧ exec i t = .next (t.succeeded i)) ∨
    ∃ e : ErrorKind, exec i s = s.raise e ∧ exec i t = t.raise e := by
  cases exec_ends i s with
  | ok hfits h =>
    cases exec_ends i t with
    | ok hfits' h' => exact .inl ⟨hfits, hfits', h, h'⟩
    | error e h' =>
      rw [replyStatus_of_ok h, replyStatus_of_error h'] at hstatus
      exact absurd (Option.some.inj hstatus).symm (code_ne_zero e)
  | error e h =>
    rw [replyStatus_of_error h] at hstatus
    cases exec_ends i t with
    | ok hfits' h' =>
      rw [replyStatus_of_ok h'] at hstatus
      exact absurd (Option.some.inj hstatus) (code_ne_zero e)
    | error e' h' =>
      rw [replyStatus_of_error h'] at hstatus
      exact .inr ⟨e, h, code_injective (Option.some.inj hstatus) ▸ h'⟩

/-! One command at two widths, and a list of commands (R81). -/

/-- What a command that does not shift makes of the receivers of agreeing states agrees. -/
theorem agree_received {i : Instr} {s t : State} (hs : s.wf = true) (ht : t.wf = true)
    (hagree : ∀ b, Agree (s.bank b) (t.bank b)) (hshift : isShift i = false)
    (hfits : Fits i (s.bank i.rd.toNat) (s.bank i.rs.toNat)) (hfits' : Fits i (t.bank i.rd.toNat) (t.bank i.rs.toNat)) :
    Agree (received i (s.bank i.rd.toNat) (s.bank i.rs.toNat)) (received i (t.bank i.rd.toNat) (t.bank i.rs.toNat)) := by
  have hV := width_pos s.inst
  have hW := width_pos t.inst
  have hx := bank_wf hs i.rd.toNat
  have hx' := bank_wf ht i.rd.toNat
  have hxx := hagree i.rd.toNat
  have hy := bank_wf hs i.rs.toNat
  have hy' := bank_wf ht i.rs.toNat
  have hyy := hagree i.rs.toNat
  cases i with
  | init rd cap => exact .fresh hV hW cap
  | set rd idx bit => exact hxx.writeBit hV hW hx hx' _ _
  | and rd rs => exact hxx.zipWords hV hW hx hx' hy hy' hyy hfits hfits' (bitwise_and s.W) (bitwise_and t.W)
  | or rd rs => exact hxx.zipWords hV hW hx hx' hy hy' hyy hfits hfits' (bitwise_or s.W) (bitwise_or t.W)
  | xor rd rs => exact hxx.zipWords hV hW hx hx' hy hy' hyy hfits hfits' (bitwise_xor s.W) (bitwise_xor t.W)
  | not rd => exact hxx.mapWords hV hW hx hx' (bitwise_not s.W) (bitwise_not t.W)
  | copy rd rs => exact hyy
  | fill rd bit => exact hxx.mapWords hV hW hx hx' (bitwise_fillWord s.W bit) (bitwise_fillWord t.W bit)
  | lshift rd num | rshift rd num => contradiction
  | get rd idx | bytes rd | iter rd => exact hxx

/-- What GET and ITER send depends on the logical bits alone. -/
theorem ok_answer_eq {i : Instr} {s t : State} (hshows : showsBits i = true)
    (hagree : Agree (s.bank i.rd.toNat) (t.bank i.rd.toNat)) (hfits : Fits i (s.bank i.rd.toNat) (s.bank i.rs.toNat)) :
    okBits i s = okBits i t ∧ okData i s = okData i t := by
  have hV := width_pos s.inst
  have hW := width_pos t.inst
  cases i with
  | get rd idx =>
    have hslot := hagree.slot idx.toNat (lt_slots_of_lt_cap hV _ hfits)
      (lt_slots_of_lt_cap hW _ (hagree.cap ▸ hfits))
    exact ⟨rfl, congrArg bitData hslot⟩
  | iter rd => exact ⟨hagree.logicalBits hV hW, hagree.cap⟩
  | _ => contradiction

theorem sameLogical_send {s t : State} (h : SameLogical s t) (ts us : List Transfer) :
    SameLogical (s.send ts) (t.send us) := h

/-- Agreeing states still agree when the same bank of both is overwritten by agreeing stores. -/
theorem sameLogical_setBank {s t : State} (hs : s.wf = true) (ht : t.wf = true) (h : SameLogical s t) (b : Nat)
    {x : Bank s.W} {y : Bank t.W} (hxy : Agree x y) : SameLogical (s.setBank b x) (t.setBank b y) := by
  obtain ⟨hbanks, hagree⟩ := (sameLogical_iff s t).mp h
  obtain ⟨-, hlen, -⟩ := (state_wf_iff s).mp hs
  obtain ⟨-, hlen', -⟩ := (state_wf_iff t).mp ht
  refine (sameLogical_iff _ _).mpr ⟨hbanks, fun c => ?_⟩
  rw [bank_setBank, bank_setBank, hlen, hlen', hbanks]
  split
  · exact hxy
  · exact hagree c

theorem sameLogical_resetOf {p q : Instance} (h : p.nbanks = q.nbanks) :
    SameLogical (State.resetOf p) (State.resetOf q) := by
  refine ⟨h, fun b => ?_⟩
  have hwc : (State.resetOf p).wc b = 0 := (resetLeavesEveryBankUnconstructed p b).2.1
  refine ⟨?_, fun k hk => ?_⟩
  · rw [(resetLeavesEveryBankUnconstructed p b).1, (resetLeavesEveryBankUnconstructed q b).1]
  · simp [hwc] at hk

/-! The statements. -/

/-- Settles O20: a refused INIT, and an accepted one. -/
theorem initConstructsAnAllZeroStore : Obligations.InitConstructsAnAllZeroStore := by
  intro s rd cap hs hrd
  obtain ⟨-, hlen, -⟩ := (state_wf_iff s).mp hs
  have hrefused := capacityRefused_iff s.inst cap
  split
  · next h => exact ⟨_, exec_init_of_refused hrd (hrefused.mpr h), sameStores_send s _, answers_send rfl _ _⟩
  · next h =>
    have hrd' : rd.toNat = rd.toNat ∧ rd.toNat < s.mem.length := ⟨rfl, hlen ▸ hrd⟩
    refine ⟨_, exec_init_of_accepted hrd (Bool.eq_false_of_not_eq_true (mt hrefused.mp h)),
      sameOtherStores_setBank_send s rd _ _, ?_, ?_, ?_⟩
    · rw [cap_send, cap_setBank, if_pos hrd', fresh_cap]
    · rw [wordVals_send, wordVals_setBank, if_pos hrd', fresh_words, List.map_replicate, BitVec.toNat_zero]
      rfl
    · exact answers_send rfl _ _

/-- Settles O21: each query reads the all-zero store. -/
theorem freshStoreReadsAllZero : Obligations.FreshStoreReadsAllZero := by
  intro s rd cap hs hrd hpos hfits
  have haccepted : capacityRefused s.inst cap = false := by
    rw [← Bool.not_eq_true, capacityRefused_iff, not_or, not_lt]
    exact ⟨hpos, hfits⟩
  have hzero := readsZero_after_init hs hrd haccepted
  generalize after (.init rd cap) s = t at hzero
  have hrd' : rd.toNat < t.inst.nbanks := hzero.inst ▸ hrd
  refine ⟨fun idx hidx => ?_, ?_, ?_⟩
  · rw [reply_get hrd' (hzero.cap ▸ hidx), hzero.slot]
    rfl
  · have hwc : t.wc rd.toNat * (t.W / 8) = (cap.toNat + s.W - 1) / s.W * (s.W / 8) := by
      rw [State.wc, Bank.wordCount, ← State.cap, hzero.cap, State.W, hzero.inst, divUp]
    rw [reply_bytes hrd', completionRecord_ok, BitVec.toNat_ofNat, Nat.mod_eq_of_lt (bytes_lt hzero.wf rd.toNat), hwc]
  · have hbits : (List.range cap.toNat).map (t.slot rd.toNat) = List.replicate cap.toNat false := by
      rw [funext hzero.slot, List.map_const', List.length_range]
    rw [reply_iter hrd', hzero.cap, hbits, List.map_replicate, completionRecord_ok]

/-- Settles O53: OK in both states, or the same error in both. -/
theorem unshiftedCommandsKeepWidthsInAgreement : Obligations.UnshiftedCommandsKeepWidthsInAgreement := by
  intro s t i hs ht hsame hshift hstatus
  obtain ⟨-, hagree⟩ := (sameLogical_iff s t).mp hsame
  rcases ends_alike hstatus with ⟨hfits, hfits', h, h'⟩ | ⟨e, h, h'⟩
  · refine ⟨?_, fun hshows => ?_⟩
    · rw [after_of_exec h, after_of_exec h']
      exact sameLogical_send
        (sameLogical_setBank hs ht hsame _ (agree_received hs ht hagree hshift hfits hfits')) _ _
    · obtain ⟨hbits, hdata⟩ := ok_answer_eq hshows (hagree _) hfits
      rw [reply_of_ok h, reply_of_ok h', hbits, hdata]
  · refine ⟨?_, fun _ => ?_⟩
    · rw [after_of_exec h, after_of_exec h']
      exact sameLogical_send hsame _ _
    · rw [reply_of_send h, reply_of_send h']

/-- From agreeing states, a list of commands without shifts shows the same bits, by induction on the list. -/
theorem replies_agree (is : List Instr) {s t : State} (hs : s.wf = true) (ht : t.wf = true) (hsame : SameLogical s t)
    (hshift : ∀ i ∈ is, isShift i = false) (hstatus : (replies is s).map replyStatus = (replies is t).map replyStatus)
    {k : Nat} {i : Instr} (hi : is[k]? = some i) (hshows : showsBits i = true) :
    (replies is s)[k]? = (replies is t)[k]? := by
  induction is generalizing s t k with
  | nil => rfl
  | cons j is ih =>
    obtain ⟨hhead, htail⟩ := List.cons.inj hstatus
    obtain ⟨hafter, hreply⟩ :=
      unshiftedCommandsKeepWidthsInAgreement s t j hs ht hsame (hshift j List.mem_cons_self) hhead
    cases k with
    | zero =>
      obtain rfl : j = i := Option.some.inj hi
      exact congrArg some (hreply hshows)
    | succ k => exact ih (after_wf hs) (after_wf ht) hafter (fun i h => hshift i (List.mem_cons_of_mem j h)) htail hi

/-- Settles O54: the two reset states agree. -/
theorem resultsDoNotDependOnTheWordWidth : Obligations.ResultsDoNotDependOnTheWordWidth := by
  intro p q is hp hq hbanks hshift hstatus k i hi hshows
  exact replies_agree is (resetOf_wf hp) (resetOf_wf hq) (sameLogical_resetOf hbanks) hshift hstatus hi hshows

end Sys2Proof.Machine
end

section
/-! PROOF. The indexed access family: GET (R83), SET (R84), and a GET after a SET (R85). -/

namespace Sys2Proof.Machine

/-! An indexed access inside the bounds, outside them (R31, R101), and on an absent bank (R56). -/

section
variable {s : State} {rd : BankNumber} {idx : Immediate} (run : Bank s.W → Nat → Result)

theorem indexed_of_lt (hrd : rd.toNat < s.inst.nbanks) (hidx : idx.toNat < (s.cap rd.toNat).toNat) :
    s.indexed rd idx run = run (s.bank rd.toNat) idx.toNat := by
  rcases indexed_cases s rd idx run with ⟨-, -, h⟩ | ⟨-, hle, -⟩ | ⟨habsent, -⟩
  · exact h
  · omega
  · omega

theorem indexed_of_le (hrd : rd.toNat < s.inst.nbanks) (hidx : (s.cap rd.toNat).toNat ≤ idx.toNat) :
    s.indexed rd idx run = .next (s.send [.completion (completionRecord (ErrorKind.code .indexOutOfRange) 0)]) := by
  rcases indexed_cases s rd idx run with ⟨-, hlt, -⟩ | ⟨-, -, h⟩ | ⟨habsent, -⟩
  · omega
  · exact h
  · omega

theorem indexed_of_absent (hrd : s.inst.nbanks ≤ rd.toNat) :
    s.indexed rd idx run = .next (s.send [.completion (completionRecord (ErrorKind.code .illegalCommand) 0)]) := by
  rcases indexed_cases s rd idx run with ⟨hlt, -⟩ | ⟨hlt, -⟩ | ⟨-, h⟩
  · omega
  · omega
  · exact h

end

/-! GET and SET are both indexed accesses (R83, R84). -/

theorem exec_get (s : State) (rd : BankNumber) (idx : Immediate) :
    exec (.get rd idx) s = s.indexed rd idx fun x k => s.complete (bitData (x.readBit k)) := rfl

theorem exec_set (s : State) (rd : BankNumber) (idx : Immediate) (bit : Bool) :
    exec (.set rd idx bit) s =
      s.indexed rd idx fun x k => (s.setBank rd.toNat (x.writeBit k bit)).complete 0 := rfl

/-! What a GET replies (R83). -/

theorem bitData_eq_ite (v : Bool) : bitData v = if v then 1 else 0 := by
  cases v <;> rfl

/-- The record of a GET that is OK is its bit, as a number (R58, R83). -/
theorem completionRecord_bitData (v : Bool) : completionRecord statusOk (bitData v) = if v then 1 else 0 := by
  rw [completionRecord_ok, bitData_toNat]
  cases v <;> rfl

/-- The reply to a GET depends only on NBANKS, the capacity of its bank and the slot of its index. -/
theorem reply_get_congr {s t : State} {b : BankNumber} {j : Immediate} (hbanks : t.inst.nbanks = s.inst.nbanks)
    (hcap : t.cap b.toNat = s.cap b.toNat) (hslot : t.slot b.toNat j.toNat = s.slot b.toNat j.toNat) :
    reply (.get b j) t = reply (.get b j) s := by
  rcases Nat.lt_or_ge b.toNat s.inst.nbanks with hb | hb
  · have hb' : b.toNat < t.inst.nbanks := hbanks ▸ hb
    rcases Nat.lt_or_ge j.toNat (s.cap b.toNat).toNat with hj | hj
    · rw [reply_get hb hj, reply_get hb' (hcap ▸ hj), hslot]
    · rw [reply_of_send ((exec_get s b j).trans (indexed_of_le _ hb hj)),
        reply_of_send ((exec_get t b j).trans (indexed_of_le _ hb' (hcap ▸ hj)))]
  · rw [reply_of_send ((exec_get s b j).trans (indexed_of_absent _ hb)),
      reply_of_send ((exec_get t b j).trans (indexed_of_absent _ (hbanks ▸ hb)))]

/-! SET (R84). -/

/-- From `s` to `t` slot `k` of bank `rd` became `bit`, and nothing else of any store changed, padding included. -/
structure WritesSlot (rd : BankNumber) (k : Nat) (bit : Bool) (s t : State) : Prop where
  others : SameOtherStores rd s t
  cap : ∀ b, t.cap b = s.cap b
  length : (t.wordVals rd.toNat).length = (s.wordVals rd.toNat).length
  written : t.slot rd.toNat k = bit
  kept : ∀ b j, b ≠ rd.toNat ∨ j ≠ k → t.slot b j = s.slot b j

/-- The state a SET inside the bounds leaves: WriteBit in bank RD, and the record that is OK with DATA 0. -/
theorem exec_set_of_lt {s : State} {rd : BankNumber} {idx : Immediate} (hrd : rd.toNat < s.inst.nbanks)
    (hidx : idx.toNat < (s.cap rd.toNat).toNat) (bit : Bool) :
    exec (.set rd idx bit) s = .next ((s.setBank rd.toNat ((s.bank rd.toNat).writeBit idx.toNat bit)).send
      [.completion (completionRecord statusOk 0)]) :=
  (exec_set s rd idx bit).trans (indexed_of_lt _ hrd hidx)

/-- WriteBit of a logical bit writes that slot; below the capacity the slot's word exists (R31). -/
theorem writesSlot_writeBit {s : State} {rd : BankNumber} {k : Nat} (hs : s.wf = true) (hrd : rd.toNat < s.inst.nbanks)
    (hk : k < (s.cap rd.toNat).toNat) (bit : Bool) (ts : List Transfer) :
    WritesSlot rd k bit s ((s.setBank rd.toNat ((s.bank rd.toNat).writeBit k bit)).send ts) := by
  have hW := width_pos s.inst
  obtain ⟨-, hlen, -⟩ := (state_wf_iff s).mp hs
  have hword : wordIndex s.W k < (s.bank rd.toNat).words.length :=
    wordIndex_lt_length hW (bank_wf hs rd.toNat) (lt_slots_of_lt_cap hW _ hk)
  have hrd' : rd.toNat = rd.toNat ∧ rd.toNat < s.mem.length := ⟨rfl, hlen ▸ hrd⟩
  refine ⟨sameOtherStores_setBank_send s rd _ ts, fun b => ?_, ?_, ?_, fun b j hne => ?_⟩
  · rw [cap_send, cap_setBank, writeBit_cap]
    split
    · next hb => rw [← hb.1, State.cap]
    · rfl
  · rw [wordVals_send, wordVals_setBank, if_pos hrd', State.wordVals, List.length_map, List.length_map]
    exact List.length_set
  · rw [slot_send, slot_setBank, if_pos hrd', readBit_writeBit_same hW _ _ _ hword]
  · rw [slot_send, slot_setBank]
    split
    · next hb =>
      obtain ⟨rfl, -⟩ := hb
      exact readBit_writeBit_other hW _ k j bit (hne.resolve_left fun h => h rfl)
    · rfl

theorem writesSlot_after_set {s : State} {rd : BankNumber} {idx : Immediate} (hs : s.wf = true)
    (hrd : rd.toNat < s.inst.nbanks) (hidx : idx.toNat < (s.cap rd.toNat).toNat) (bit : Bool) :
    WritesSlot rd idx.toNat bit s (after (.set rd idx bit) s) := by
  rw [after_of_exec (exec_set_of_lt hrd hidx bit)]
  exact writesSlot_writeBit hs hrd hidx bit _

/-! The statements. -/

/-- Settles O22: outside the bounds, and inside them. -/
theorem getReturnsTheLogicalBit : Obligations.GetReturnsTheLogicalBit := by
  intro s rd idx _ hrd
  split
  · next hle => exact ⟨_, (exec_get s rd idx).trans (indexed_of_le _ hrd hle), sameStores_send s _,
      answers_send rfl _ _⟩
  · next hlt =>
    refine ⟨_, (exec_get s rd idx).trans (indexed_of_lt _ hrd (Nat.not_le.mp hlt)), sameStores_send s _, ?_⟩
    rw [← slotIsMostSignificantBitFirst, ← bitData_eq_ite]
    exact answers_send rfl _ _

/-- Settles O23: outside the bounds, and inside them. -/
theorem setWritesOnlyTheLogicalBit : Obligations.SetWritesOnlyTheLogicalBit := by
  intro s rd idx bit hs hrd
  split
  · next hle => exact ⟨_, (exec_set s rd idx bit).trans (indexed_of_le _ hrd hle), sameStores_send s _,
      answers_send rfl _ _⟩
  · next hlt =>
    have hidx := Nat.not_le.mp hlt
    have hset := writesSlot_writeBit hs hrd hidx bit [.completion (completionRecord statusOk 0)]
    exact ⟨_, exec_set_of_lt hrd hidx bit, hset.others, hset.cap _, hset.length, hset.written,
      fun j hj => hset.kept _ j (.inr hj), answers_send rfl _ _⟩

/-- Settles O24: a GET reads its slot, and SET writes one slot, which is below the capacity. -/
theorem getAfterSetReturnsTheBit : Obligations.GetAfterSetReturnsTheBit := by
  intro s rd idx bit hs hrd hidx
  have hset := writesSlot_after_set hs hrd hidx bit
  generalize after (.set rd idx bit) s = t at hset
  obtain ⟨hinst, -, -⟩ := hset.others
  have hbanks : t.inst.nbanks = s.inst.nbanks := congrArg Instance.nbanks hinst
  refine ⟨?_, fun b j hne => ?_, hset.others, fun j hj => hset.kept _ j (.inr (by omega))⟩
  · rw [reply_get (hbanks ▸ hrd) (hset.cap _ ▸ hidx), hset.written, completionRecord_bitData]
  · exact reply_get_congr hbanks (hset.cap _)
      (hset.kept _ _ (hne.imp (mt BitVec.eq_of_toNat_eq) (mt BitVec.eq_of_toNat_eq)))

end Sys2Proof.Machine
end

section
/-! PROOF. The bulk boolean family: AND, OR, XOR (R87 to R89) and NOT (R90), word by word, and the laws they obey. -/

namespace Sys2Proof.Machine

/-! The four commands by their shape (R86). -/

theorem exec_and (s : State) (rd rs : BankNumber) :
    exec (.and rd rs) s = s.bulkBinary rd rs fun u v => u &&& v := rfl

theorem exec_or (s : State) (rd rs : BankNumber) :
    exec (.or rd rs) s = s.bulkBinary rd rs fun u v => u ||| v := rfl

theorem exec_xor (s : State) (rd rs : BankNumber) :
    exec (.xor rd rs) s = s.bulkBinary rd rs fun u v => u ^^^ v := rfl

theorem exec_not (s : State) (rd : BankNumber) : exec (.not rd) s = s.bulkUnary rd fun u => ~~~u := rfl

/-! A bulk command on banks that exist (R86, R102). -/

section
variable {s : State} {rd rs : BankNumber}

theorem bulkUnary_of_lt (hrd : rd.toNat < s.inst.nbanks) (f : BitVec s.W → BitVec s.W) :
    s.bulkUnary rd f = .next ((s.setBank rd.toNat ((s.bank rd.toNat).mapWords f)).send
      [.completion (completionRecord statusOk (handle rd))]) := by
  rcases bulkUnary_cases s rd f with ⟨-, h⟩ | ⟨habsent, -⟩
  · exact h
  · omega

theorem bulkBinary_of_wc_eq (hrd : rd.toNat < s.inst.nbanks) (hrs : rs.toNat < s.inst.nbanks)
    (hwc : s.wc rd.toNat = s.wc rs.toNat) (f : BitVec s.W → BitVec s.W → BitVec s.W) :
    s.bulkBinary rd rs f = .next ((s.setBank rd.toNat ((s.bank rd.toNat).zipWords f (s.bank rs.toNat))).send
      [.completion (completionRecord statusOk (handle rd))]) := by
  rcases bulkBinary_cases s rd rs f with ⟨-, -, -, h⟩ | ⟨-, -, hne, -⟩ | ⟨habsent, -⟩
  · exact h
  · exact absurd hwc hne
  · omega

theorem bulkBinary_of_wc_ne (hrd : rd.toNat < s.inst.nbanks) (hrs : rs.toNat < s.inst.nbanks)
    (hwc : s.wc rd.toNat ≠ s.wc rs.toNat) (f : BitVec s.W → BitVec s.W → BitVec s.W) :
    s.bulkBinary rd rs f =
      .next (s.send [.completion (completionRecord (ErrorKind.code .sizeMismatch) 0)]) := by
  rcases bulkBinary_cases s rd rs f with ⟨-, -, heq, -⟩ | ⟨-, -, -, h⟩ | ⟨habsent, -⟩
  · exact absurd heq hwc
  · exact h
  · omega

end

/-! What a bulk command that is OK makes of its receiver's words (R86). -/

/-- From `s` to `t` every word `k` of bank `rd` became `value k`, its capacity and every other bank stayed as they were,
and the command answered OK with the handle of `rd`. -/
def RewritesWords (rd : BankNumber) (value : Nat → Nat) (s t : State) : Prop :=
  SameOtherStores rd s t ∧ t.cap rd.toNat = s.cap rd.toNat ∧ (t.wordVals rd.toNat).length = s.wc rd.toNat ∧
    (∀ k, k < s.wc rd.toNat → t.wordVal rd.toNat k = value k) ∧ Answers s t [] 0x00 (rd.setWidth 32)

theorem rewritesWords_setBank_send {s : State} {rd : BankNumber} {x : Bank s.W} {value : Nat → Nat}
    (hs : s.wf = true) (hrd : rd.toNat < s.inst.nbanks) (hcap : x.cap = s.cap rd.toNat)
    (hlength : x.words.length = s.wc rd.toNat) (hword : ∀ k, k < s.wc rd.toNat → (x.word k).toNat = value k) :
    RewritesWords rd value s
      ((s.setBank rd.toNat x).send [.completion (completionRecord statusOk (handle rd))]) := by
  obtain ⟨-, hlen, -⟩ := (state_wf_iff s).mp hs
  have hrd' : rd.toNat = rd.toNat ∧ rd.toNat < s.mem.length := ⟨rfl, hlen ▸ hrd⟩
  refine ⟨sameOtherStores_setBank_send s rd x _, ?_, ?_, fun k hk => ?_, answers_send rfl _ _⟩
  · rw [cap_send, cap_setBank, if_pos hrd', hcap]
  · rw [wordVals_send, wordVals_setBank, if_pos hrd', List.length_map, hlength]
  · rw [wordVal_send, wordVal_setBank, if_pos hrd', hword k hk]

/-- A unary bulk command applies its function, `φ` on numbers, to every word. -/
theorem exec_bulkUnary_rewritesWords {s : State} {i : Instr} {rd : BankNumber} {f : BitVec s.W → BitVec s.W}
    {φ : Nat → Nat} (hi : exec i s = s.bulkUnary rd f) (hf : ∀ u, (f u).toNat = φ u.toNat) (hs : s.wf = true)
    (hrd : rd.toNat < s.inst.nbanks) :
    ∃ t, exec i s = .next t ∧ RewritesWords rd (fun k => φ (s.wordVal rd.toNat k)) s t := by
  have hlength := bank_words_length hs rd.toNat
  refine ⟨_, hi.trans (bulkUnary_of_lt hrd f), rewritesWords_setBank_send hs hrd rfl ?_ fun k hk => ?_⟩
  · rw [mapWords_words, List.length_map, hlength]
  · rw [word_mapWords f _ (hlength ▸ hk), hf, State.wordVal]

/-- A binary bulk command applies its function, `φ` on numbers, to every two words, or raises SizeMismatch. -/
theorem exec_bulkBinary_rewritesWords {s : State} {i : Instr} {rd rs : BankNumber}
    {f : BitVec s.W → BitVec s.W → BitVec s.W} {φ : Nat → Nat → Nat} (hi : exec i s = s.bulkBinary rd rs f)
    (hf : ∀ u v, (f u v).toNat = φ u.toNat v.toNat) (hs : s.wf = true) (hrd : rd.toNat < s.inst.nbanks)
    (hrs : rs.toNat < s.inst.nbanks) :
    ∃ t, exec i s = .next t ∧
      if s.wc rd.toNat = s.wc rs.toNat then
        RewritesWords rd (fun k => φ (s.wordVal rd.toNat k) (s.wordVal rs.toNat k)) s t
      else SameStores s t ∧ Answers s t [] 0x02 0 := by
  split
  · next hwc =>
    have hlength := bank_words_length hs rd.toNat
    have hlength' := bank_words_length hs rs.toNat
    refine ⟨_, hi.trans (bulkBinary_of_wc_eq hrd hrs hwc f), rewritesWords_setBank_send hs hrd rfl ?_ fun k hk => ?_⟩
    · rw [zipWords_words, List.length_zipWith, hlength, hlength', ← hwc, Nat.min_self]
    · rw [word_zipWords f _ _ (hlength ▸ hk) (hlength' ▸ hwc ▸ hk), hf, State.wordVal, State.wordVal]
  · next hwc =>
    exact ⟨_, hi.trans (bulkBinary_of_wc_ne hrd hrs hwc f), sameStores_send s _, answers_send rfl _ _⟩

/-! The bulk loops done twice, or with one bank on both sides. -/

section
variable {W : Nat} (x : Bank W)

theorem mapWords_mapWords_of_involutive {f : BitVec W → BitVec W} (hf : Function.Involutive f) :
    (x.mapWords f).mapWords f = x := by
  simp only [Bank.mapWords, List.map_map, hf.comp_self, List.map_id]

/-- Combining twice with the same words restores the receiver, where the function undoes itself. -/
theorem zipWords_zipWords_of_involutive {f : BitVec W → BitVec W → BitVec W} (hf : ∀ u v, f (f u v) v = u) {y : Bank W}
    (hlength : x.words.length = y.words.length) : (x.zipWords f y).zipWords f y = x := by
  have hwords : List.zipWith f (List.zipWith f x.words y.words) y.words = x.words := by
    refine List.ext_getElem (by simp [hlength]) fun k _ _ => ?_
    rw [List.getElem_zipWith, List.getElem_zipWith, hf]
  rw [Bank.zipWords, zipWords_words, hwords, zipWords_cap]

theorem zipWords_self (f : BitVec W → BitVec W → BitVec W) : x.zipWords f x = x.mapWords fun u => f u u := by
  rw [Bank.zipWords, List.zipWith_self, Bank.mapWords]

theorem zipWords_self_of_idempotent {f : BitVec W → BitVec W → BitVec W} (hf : ∀ u, f u u = u) :
    x.zipWords f x = x := by
  rw [zipWords_self, funext hf, Bank.mapWords, List.map_id']

end

/-! A state whose receiver is written once more (R17). -/

theorem bank_setBank_send_same {s : State} {b : Nat} (hb : b < s.mem.length) (x : Bank s.W) (ts : List Transfer) :
    ((s.setBank b x).send ts).bank b = x :=
  (bank_setBank s b b x).trans (if_pos ⟨rfl, hb⟩)

theorem bank_setBank_send_other {s : State} {b c : Nat} (hbc : b ≠ c) (x : Bank s.W) (ts : List Transfer) :
    ((s.setBank b x).send ts).bank c = s.bank c :=
  (bank_setBank s b c x).trans (if_neg fun h => hbc h.1)

/-- Whatever was written to a bank in between, writing back what it held restores every store. -/
theorem sameStores_setBank_back {s : State} {b : Nat} {x y : Bank s.W} (hy : y = s.bank b) (ts us : List Transfer) :
    SameStores s ((State.setBank ((s.setBank b x).send ts) b y).send us) := by
  have hback : (s.setBank b x).setBank b y = s :=
    calc (s.setBank b x).setBank b y = s.setBank b y := by simp [State.setBank]
      _ = s := by rw [hy, setBank_bank]
  have hsame : SameStores s ((s.setBank b x).setBank b y) := hback.symm ▸ sameStores_refl s
  exact hsame

/-! The laws (R87 to R90, corner cases). -/

section
variable {s : State} {rd rs : BankNumber} (hs : s.wf = true) (hrd : rd.toNat < s.inst.nbanks)
include hs hrd

theorem sameStores_not_not : SameStores s (after (.not rd) (after (.not rd) s)) := by
  obtain ⟨-, hlen, -⟩ := (state_wf_iff s).mp hs
  rw [after_of_exec ((exec_not s rd).trans (bulkUnary_of_lt hrd _)),
    after_of_exec ((exec_not _ rd).trans (bulkUnary_of_lt (s := (s.setBank _ _).send _) hrd _))]
  refine sameStores_setBank_back ?_ _ _
  rw [bank_setBank_send_same (hlen ▸ hrd)]
  exact mapWords_mapWords_of_involutive _ fun u => BitVec.not_not

/-- XOR with another bank twice: both succeed, or both raise SizeMismatch. -/
theorem sameStores_xor_xor (hrs : rs.toNat < s.inst.nbanks) (hne : rd ≠ rs) :
    SameStores s (after (.xor rd rs) (after (.xor rd rs) s)) := by
  by_cases hwc : s.wc rd.toNat = s.wc rs.toNat
  · obtain ⟨-, hlen, -⟩ := (state_wf_iff s).mp hs
    have hlength : (s.bank rd.toNat).words.length = (s.bank rs.toNat).words.length := by
      rw [bank_words_length hs, bank_words_length hs, hwc]
    have hsame := bank_setBank_send_same (s := s) (hlen ▸ hrd)
    have hother := bank_setBank_send_other (s := s) (mt BitVec.eq_of_toNat_eq hne)
    rw [after_of_exec ((exec_xor s rd rs).trans (bulkBinary_of_wc_eq hrd hrs hwc _)),
      after_of_exec ((exec_xor _ rd rs).trans (bulkBinary_of_wc_eq (s := (s.setBank _ _).send _) hrd hrs ?_ _))]
    · refine sameStores_setBank_back ?_ _ _
      rw [hsame, hother]
      exact zipWords_zipWords_of_involutive _ xor_cancel_right hlength
    · rw [State.wc, State.wc, hsame, hother]
      exact hwc
  · have h := (exec_xor s rd rs).trans (bulkBinary_of_wc_ne hrd hrs hwc _)
    exact sameStores_trans (sameStores_after_of_send h) (sameStores_again_of_send h)

theorem wordVals_xor_self : (after (.xor rd rd) s).wordVals rd.toNat = List.replicate (s.wc rd.toNat) 0 := by
  obtain ⟨-, hlen, -⟩ := (state_wf_iff s).mp hs
  rw [after_of_exec ((exec_xor s rd rd).trans (bulkBinary_of_wc_eq hrd hrd rfl _)), wordVals_send, wordVals_setBank,
    if_pos ⟨rfl, hlen ▸ hrd⟩, zipWords_self, mapWords_words, ← bank_words_length hs]
  simp

end

/-- A binary command that is idempotent on words changes nothing with one bank on both sides. -/
theorem sameStores_bulkBinary_self {s : State} {i : Instr} {rd : BankNumber} {f : BitVec s.W → BitVec s.W → BitVec s.W}
    (hi : exec i s = s.bulkBinary rd rd f) (hf : ∀ u, f u u = u) (hrd : rd.toNat < s.inst.nbanks) :
    SameStores s (after i s) := by
  have h := hi.trans (bulkBinary_of_wc_eq hrd hrd rfl f)
  rw [zipWords_self_of_idempotent _ hf, setBank_bank] at h
  exact sameStores_after_of_send h

/-! The statements. -/

/-- Settles O27: AND of words is AND of their numbers. -/
theorem andCombinesEveryWord : Obligations.AndCombinesEveryWord := by
  intro s rd rs hs hrd hrs
  exact exec_bulkBinary_rewritesWords (exec_and s rd rs) BitVec.toNat_and hs hrd hrs

/-- Settles O28: OR of words is OR of their numbers. -/
theorem orCombinesEveryWord : Obligations.OrCombinesEveryWord := by
  intro s rd rs hs hrd hrs
  exact exec_bulkBinary_rewritesWords (exec_or s rd rs) BitVec.toNat_or hs hrd hrs

/-- Settles O29: XOR of words is XOR of their numbers. -/
theorem xorCombinesEveryWord : Obligations.XorCombinesEveryWord := by
  intro s rd rs hs hrd hrs
  exact exec_bulkBinary_rewritesWords (exec_xor s rd rs) BitVec.toNat_xor hs hrd hrs

/-- Settles O30: the complement of a word is that of its number below `2 ^ W`. -/
theorem notComplementsEveryWord : Obligations.NotComplementsEveryWord := by
  intro s rd hs hrd
  exact exec_bulkUnary_rewritesWords (φ := fun n => 2 ^ s.W - 1 - n) (exec_not s rd) (fun _ => BitVec.toNat_not) hs hrd

/-- Settles O31: one lemma per law. -/
theorem booleanLawsHoldOnEveryWord : Obligations.BooleanLawsHoldOnEveryWord := by
  intro s rd rs hs hrd hrs
  exact ⟨sameStores_not_not hs hrd, sameStores_xor_xor hs hrd hrs, wordVals_xor_self hs hrd,
    sameStores_bulkBinary_self (exec_and s rd rd) (fun _ => BitVec.and_self) hrd,
    sameStores_bulkBinary_self (exec_or s rd rd) (fun _ => BitVec.or_self) hrd⟩

end Sys2Proof.Machine
end

section
/-! PROOF. The shift family: LSHIFT (R92) and RSHIFT (R93), on the numbers of the words, on their slots, and done twice. -/

namespace Sys2Proof.Machine

/-! The two commands by their shape (R91). -/

theorem exec_lshift (s : State) (rd : BankNumber) (num : Immediate) :
    exec (.lshift rd num) s = s.bulkUnary rd (shiftWordLeft num.toNat) := rfl

theorem exec_rshift (s : State) (rd : BankNumber) (num : Immediate) :
    exec (.rshift rd num) s = s.bulkUnary rd (shiftWordRight num.toNat) := rfl

/-! One word shifted (R92, R93). -/

section
variable {W : Nat} (n : Nat) (u : BitVec W)

/-- The zero from `n = W` on is what a shift that drops the bits leaves anyway. -/
theorem shiftWordLeft_eq : shiftWordLeft n u = u <<< n := by
  rw [shiftWordLeft]
  split
  · next h => rw [BitVec.shiftLeft_eq_zero h]
  · rfl

theorem shiftWordRight_eq : shiftWordRight n u = u >>> n := by
  rw [shiftWordRight]
  split
  · next h => rw [BitVec.ushiftRight_eq_zero h]
  · rfl

theorem toNat_shiftWordLeft :
    (shiftWordLeft n u).toNat = if W ≤ n then 0 else u.toNat * 2 ^ n % 2 ^ W := by
  rw [shiftWordLeft]
  split
  · exact BitVec.toNat_zero
  · rw [BitVec.toNat_shiftLeft, Nat.shiftLeft_eq]

theorem toNat_shiftWordRight : (shiftWordRight n u).toNat = if W ≤ n then 0 else u.toNat / 2 ^ n := by
  rw [shiftWordRight]
  split
  · exact BitVec.toNat_zero
  · rw [BitVec.toNat_ushiftRight, Nat.shiftRight_eq_div_pow]

/-- The bit at offset `o` from the most significant end comes from `n` offsets further on, or is filled in. -/
theorem getMsbD_shiftWordLeft {o : Nat} (ho : o < W) :
    (shiftWordLeft n u).getMsbD o = if o + n ≤ W - 1 then u.getMsbD (o + n) else false := by
  rw [shiftWordLeft_eq, BitVec.getMsbD_shiftLeft]
  split
  · rfl
  · exact BitVec.getMsbD_of_ge u _ (by omega)

/-- The bit at offset `o` from the most significant end comes from `n` offsets before, or is filled in. -/
theorem getMsbD_shiftWordRight {o : Nat} (ho : o < W) :
    (shiftWordRight n u).getMsbD o = if n ≤ o then u.getMsbD (o - n) else false := by
  rw [shiftWordRight_eq, BitVec.getMsbD_ushiftRight, decide_eq_true ho, Bool.true_and]
  split
  · next h => rw [decide_eq_false (Nat.not_lt.mpr h), Bool.not_false, Bool.true_and]
  · next h => rw [decide_eq_true (Nat.not_le.mp h), Bool.not_true, Bool.false_and]

theorem shiftWordLeft_shiftWordLeft (m : Nat) :
    shiftWordLeft n (shiftWordLeft m u) = shiftWordLeft (m + n) u := by
  rw [shiftWordLeft_eq, shiftWordLeft_eq, shiftWordLeft_eq, BitVec.shiftLeft_add]

end

/-! The slots of one word (R32). -/

/-- Slot `o` of word `k` is the word's bit at offset `o` from its most significant end. -/
theorem readBit_eq_getMsbD {W : Nat} (x : Bank W) (k : Nat) {o : Nat} (ho : o < W) :
    x.readBit (k * W + o) = (x.word k).getMsbD o := by
  have hW : 0 < W := Nat.zero_lt_of_lt ho
  have hword : wordIndex W (k * W + o) = k := by
    rw [wordIndex, Nat.mul_comm, Nat.mul_add_div hW, Nat.div_eq_of_lt ho, Nat.add_zero]
  have hposition : bitPosition W (k * W + o) = W - 1 - o := by
    rw [bitPosition, localOffset, Nat.mul_add_mod_of_lt ho]
  rw [readBit_eq_getLsbD hW, hword, hposition, BitVec.getMsbD_eq_getLsbD, decide_eq_true ho, Bool.true_and]

/-- After a unary bulk command a slot of the receiver is a bit of its word's new value. -/
theorem slot_after_bulkUnary {s : State} {i : Instr} {rd : BankNumber} {f : BitVec s.W → BitVec s.W} {k o : Nat}
    (hi : exec i s = s.bulkUnary rd f) (hs : s.wf = true) (hrd : rd.toNat < s.inst.nbanks) (hk : k < s.wc rd.toNat)
    (ho : o < s.W) : (after i s).slot rd.toNat (k * s.W + o) = (f ((s.bank rd.toNat).word k)).getMsbD o := by
  obtain ⟨-, hlen, -⟩ := (state_wf_iff s).mp hs
  rw [after_of_exec (hi.trans (bulkUnary_of_lt hrd f)), slot_send, slot_setBank, if_pos ⟨rfl, hlen ▸ hrd⟩,
    readBit_eq_getMsbD _ k ho, word_mapWords f _ (bank_words_length hs rd.toNat ▸ hk)]

/-! Two shifts in a row (R92, corner case 6). -/

theorem mapWords_mapWords {W : Nat} (f g : BitVec W → BitVec W) (x : Bank W) :
    (x.mapWords f).mapWords g = x.mapWords (g ∘ f) := by
  simp only [Bank.mapWords, List.map_map]

/-- Rewriting a bank twice is rewriting it once with both functions, also where the bank is not there. -/
theorem setBank_setBank_bank (s : State) (b : Nat) (f g : Bank s.W → Bank s.W) :
    (s.setBank b (f (s.bank b))).setBank b (g ((s.setBank b (f (s.bank b))).bank b)) =
      s.setBank b (g (f (s.bank b))) := by
  by_cases hb : b < s.mem.length
  · rw [bank_setBank, if_pos ⟨rfl, hb⟩]
    simp [State.setBank]
  · simp [State.setBank, List.set_eq_of_length_le (Nat.not_lt.mp hb)]

theorem sameStores_of_eq {s t : State} (h : s = t) : SameStores s t := h ▸ sameStores_refl s

theorem sameStores_symm {s t : State} (h : SameStores s t) : SameStores t s :=
  ⟨h.1.symm, fun b => ⟨(h.2 b).1.symm, (h.2 b).2.symm⟩⟩

/-- A command on a bank that is not there leaves every store (R56, R104). -/
theorem sameStores_after_of_absent {i : Instr} {s : State} (h : s.inst.nbanks ≤ i.rd.toNat) :
    SameStores s (after i s) := by
  obtain ⟨t, hexec, hsame, -⟩ := absentBankRaisesIllegalCommand s i (.inl h)
  exact after_of_exec hexec ▸ hsame

/-- Two shifts of a bank that is there are one by a count that is the sum of theirs. -/
theorem sameStores_lshift_lshift {s : State} {rd : BankNumber} {m n p : Immediate} (hrd : rd.toNat < s.inst.nbanks)
    (hp : p.toNat = m.toNat + n.toNat) :
    SameStores (after (.lshift rd p) s) (after (.lshift rd n) (after (.lshift rd m) s)) := by
  have hwords : (shiftWordLeft n.toNat ∘ shiftWordLeft m.toNat : BitVec s.W → _) = shiftWordLeft p.toNat :=
    funext fun u => hp ▸ shiftWordLeft_shiftWordLeft n.toNat u m.toNat
  have htwice := setBank_setBank_bank s rd.toNat (Bank.mapWords (shiftWordLeft m.toNat))
    (Bank.mapWords (shiftWordLeft n.toNat))
  rw [mapWords_mapWords, hwords] at htwice
  have hsame := sameStores_of_eq htwice.symm
  rw [after_of_exec ((exec_lshift s rd p).trans (bulkUnary_of_lt hrd _)),
    after_of_exec ((exec_lshift s rd m).trans (bulkUnary_of_lt hrd _)),
    after_of_exec ((exec_lshift _ rd n).trans (bulkUnary_of_lt (s := (s.setBank _ _).send _) hrd _))]
  exact hsame

/-! The statements. -/

/-- Settles O32: a word's number after the shift, for every word. -/
theorem lshiftShiftsEveryWordByItself : Obligations.LshiftShiftsEveryWordByItself := by
  intro s rd num hs hrd
  exact exec_bulkUnary_rewritesWords (φ := fun v => if s.W ≤ num.toNat then 0 else v * 2 ^ num.toNat % 2 ^ s.W)
    (exec_lshift s rd num) (toNat_shiftWordLeft num.toNat) hs hrd

/-- Settles O33: a word's number after the shift, for every word. -/
theorem rshiftShiftsEveryWordByItself : Obligations.RshiftShiftsEveryWordByItself := by
  intro s rd num hs hrd
  exact exec_bulkUnary_rewritesWords (φ := fun v => if s.W ≤ num.toNat then 0 else v / 2 ^ num.toNat)
    (exec_rshift s rd num) (toNat_shiftWordRight num.toNat) hs hrd

/-- Settles O34: a slot is a bit of its word counted from the most significant end, before and after. -/
theorem shiftsMoveSlotsWithinAWord : Obligations.ShiftsMoveSlotsWithinAWord := by
  intro s rd num k o hs hrd hk ho _
  constructor
  · rw [slot_after_bulkUnary (exec_lshift s rd num) hs hrd hk ho, getMsbD_shiftWordLeft _ _ ho]
    split
    · next h => rw [Nat.add_assoc, State.slot, readBit_eq_getMsbD _ k (by omega)]
    · rfl
  · rw [slot_after_bulkUnary (exec_rshift s rd num) hs hrd hk ho, getMsbD_shiftWordRight _ _ ho]
    split
    · next h => rw [Nat.add_sub_assoc h, State.slot, readBit_eq_getMsbD _ k (by omega)]
    · rfl

/-- Settles O35: on a bank that is there the counts add in every word, on any other nothing changes. -/
theorem lshiftCountsAdd : Obligations.LshiftCountsAdd := by
  intro s rd m n hmn
  rcases Nat.lt_or_ge rd.toNat s.inst.nbanks with hrd | habsent
  · exact sameStores_lshift_lshift hrd (BitVec.toNat_add_of_lt (by omega))
  · have hfirst : SameStores s (after (.lshift rd m) s) := sameStores_after_of_absent habsent
    have hsecond : SameStores (after (.lshift rd m) s) (after (.lshift rd n) (after (.lshift rd m) s)) :=
      sameStores_after_of_absent (hfirst.1.symm ▸ habsent)
    exact sameStores_trans (sameStores_symm (sameStores_after_of_absent habsent)) (sameStores_trans hfirst hsecond)

end Sys2Proof.Machine
end

section
/-! PROOF. The copy and fill family: COPY makes an independent duplicate (R94), FILL sets every word (R95), and a GET after
a FILL. -/

namespace Sys2Proof.Machine

/-! Any command beside its receiver (R17). -/

theorem sameOtherStores_after (i : Instr) (s : State) : SameOtherStores i.rd s (after i s) := by
  obtain ⟨t, hexec, hothers⟩ := onlyTheReceiverChanges i s
  rw [after_of_exec hexec]
  exact hothers

/-- A bank that holds a store holds it still after a command with another receiver. -/
theorem store_after_of_ne {i : Instr} {s : State} {b : BankNumber} {cap : Immediate} {words : List Nat}
    (hne : b ≠ i.rd) (hstore : s.cap b.toNat = cap ∧ s.wordVals b.toNat = words) :
    (after i s).cap b.toNat = cap ∧ (after i s).wordVals b.toNat = words := by
  obtain ⟨-, -, hothers⟩ := sameOtherStores_after i s
  obtain ⟨hcap, hwords⟩ := hothers b.toNat (mt BitVec.eq_of_toNat_eq hne)
  exact ⟨hcap.trans hstore.1, hwords.trans hstore.2⟩

/-! COPY (R94). -/

section
variable {s : State} {rd rs : BankNumber}

theorem exec_copy_of_lt (hrd : rd.toNat < s.inst.nbanks) (hrs : rs.toNat < s.inst.nbanks) :
    exec (.copy rd rs) s = .next ((s.setBank rd.toNat (s.bank rs.toNat)).send
      [.completion (completionRecord statusOk (handle rd))]) :=
  onPair_of_lt hrd hrs fun _ y => s.receive rd y

/-- What the receiver of a COPY holds is what the source held, also where they are one bank. -/
theorem store_after_copy (hs : s.wf = true) (hrd : rd.toNat < s.inst.nbanks) (hrs : rs.toNat < s.inst.nbanks) :
    (after (.copy rd rs) s).cap rd.toNat = s.cap rs.toNat ∧
      (after (.copy rd rs) s).wordVals rd.toNat = s.wordVals rs.toNat := by
  obtain ⟨-, hlen, -⟩ := (state_wf_iff s).mp hs
  refine ⟨cap_after_copy hs hrd hrs, ?_⟩
  rw [after_of_exec (exec_copy_of_lt hrd hrs), wordVals_send, wordVals_setBank, if_pos ⟨rfl, hlen ▸ hrd⟩, State.wordVals]

end

/-! FILL (R95). -/

theorem toNat_fillWord (W : Nat) (bit : Bool) : (fillWord W bit).toNat = if bit then 2 ^ W - 1 else 0 := by
  cases bit with
  | false => exact BitVec.toNat_zero
  | true => exact BitVec.toNat_allOnes

section
variable {s : State} {rd : BankNumber} (bit : Bool)

theorem exec_fill_of_lt (hrd : rd.toNat < s.inst.nbanks) :
    exec (.fill rd bit) s = .next ((s.setBank rd.toNat ((s.bank rd.toNat).mapWords fun _ => fillWord s.W bit)).send
      [.completion (completionRecord statusOk (handle rd))]) :=
  bulkUnary_of_lt hrd _

theorem cap_after_fill (hrd : rd.toNat < s.inst.nbanks) :
    (after (.fill rd bit) s).cap rd.toNat = s.cap rd.toNat := by
  rw [after_of_exec (exec_fill_of_lt bit hrd), cap_send, cap_setBank, mapWords_cap]
  exact ite_self _

theorem wordVals_after_fill (hs : s.wf = true) (hrd : rd.toNat < s.inst.nbanks) :
    (after (.fill rd bit) s).wordVals rd.toNat =
      List.replicate (s.wc rd.toNat) (if bit then 2 ^ s.W - 1 else 0) := by
  obtain ⟨-, hlen, -⟩ := (state_wf_iff s).mp hs
  rw [after_of_exec (exec_fill_of_lt bit hrd), wordVals_send, wordVals_setBank, if_pos ⟨rfl, hlen ▸ hrd⟩, mapWords_words,
    List.map_const', List.map_replicate, toNat_fillWord, bank_words_length hs]

/-- After FILL every slot of the receiver's words, padding included, holds the bit. -/
theorem slot_after_fill {k : Nat} (hs : s.wf = true) (hrd : rd.toNat < s.inst.nbanks) (hk : k < s.wc rd.toNat * s.W) :
    (after (.fill rd bit) s).slot rd.toNat k = bit := by
  obtain ⟨-, hlen, -⟩ := (state_wf_iff s).mp hs
  have hW := width_pos s.inst
  rw [after_of_exec (exec_fill_of_lt bit hrd), slot_send, slot_setBank, if_pos ⟨rfl, hlen ▸ hrd⟩,
    readBit_mapWords (bitwise_fillWord s.W bit) hW (wordIndex_lt_length hW (bank_wf hs _) hk)]

end

/-! The statements. -/

/-- Settles O37: COPY writes bank RD only, and writes the store of RS there. -/
theorem copyDuplicatesTheStore : Obligations.CopyDuplicatesTheStore := by
  intro s rd rs hs hrd hrs
  have hexec := exec_copy_of_lt hrd hrs
  obtain ⟨hcap, hwords⟩ := store_after_copy hs hrd hrs
  rw [after_of_exec hexec] at hcap hwords
  exact ⟨_, hexec, sameOtherStores_setBank_send s rd _ _, hcap, hwords, answers_send rfl _ _⟩

/-- Settles O38: after COPY both banks hold the source's store, and a command changes its receiver only. -/
theorem copyIsIndependentOfItsSource : Obligations.CopyIsIndependentOfItsSource := by
  intro s rd rs i hs hrd hrs hne
  have hsource : (after (.copy rd rs) s).cap rs.toNat = s.cap rs.toNat ∧
      (after (.copy rd rs) s).wordVals rs.toNat = s.wordVals rs.toNat :=
    store_after_of_ne (i := .copy rd rs) hne.symm ⟨rfl, rfl⟩
  constructor
  · rintro rfl
    exact store_after_of_ne hne.symm hsource
  · rintro rfl
    exact store_after_of_ne hne (store_after_copy hs hrd hrs)

/-- Settles O39: FILL writes bank RD only, with the fill word in place of each of its words. -/
theorem fillSetsEveryWord : Obligations.FillSetsEveryWord := by
  intro s rd bit hs hrd
  have hexec := exec_fill_of_lt bit hrd
  have hcap := cap_after_fill bit hrd
  have hwords := wordVals_after_fill bit hs hrd
  rw [after_of_exec hexec] at hcap hwords
  exact ⟨_, hexec, sameOtherStores_setBank_send s rd _ _, hcap, hwords, answers_send rfl _ _⟩

/-- Settles O40: FILL keeps the capacity, and GET of an index below it reads a slot that holds the bit. -/
theorem getAfterFillReturnsTheBit : Obligations.GetAfterFillReturnsTheBit := by
  intro s rd bit idx hs hrd hidx
  obtain ⟨hinst, -, -⟩ := sameOtherStores_after (.fill rd bit) s
  have hslot := slot_after_fill bit hs hrd (lt_slots_of_lt_cap (width_pos s.inst) _ hidx)
  rw [reply_get (congrArg Instance.nbanks hinst ▸ hrd) ((cap_after_fill bit hrd).symm ▸ hidx), hslot,
    completionRecord_bitData]

end Sys2Proof.Machine
end

section
/-! PROOF. The query family: BYTES counts the bytes behind a bank (R96), ITER streams the logical bits in index order
(R97), which are those that GET of every index in turn answers (R98). -/

namespace Sys2Proof.Machine

/-! BYTES and ITER on a bank that is there: each only sends (R96, R97). -/

section
variable {s : State} {rd : BankNumber}

theorem exec_bytes_of_lt (hrd : rd.toNat < s.inst.nbanks) :
    exec (.bytes rd) s =
      .next (s.send [.completion (completionRecord statusOk (BitVec.ofNat 32 (s.wc rd.toNat * (s.W / 8))))]) :=
  onReceiver_of_lt hrd fun x => s.complete (BitVec.ofNat 32 (x.wordCount * (s.W / 8)))

theorem exec_iter_of_lt (hrd : rd.toNat < s.inst.nbanks) :
    exec (.iter rd) s = .next (s.send (((List.range (s.cap rd.toNat).toNat).map (s.slot rd.toNat)).map .stream ++
      [.completion (completionRecord statusOk (s.cap rd.toNat))])) := by
  rw [← send_send]
  exact onReceiver_of_lt hrd fun x => (s.emit x.logicalBits).complete x.cap

end

/-! The size of a store (R7, R14). -/

/-- The words behind a bank hold at most `2^32` bits. -/
theorem wc_mul_width_le {s : State} (hs : s.wf = true) (b : Nat) : s.wc b * s.W ≤ 2 ^ 32 := by
  obtain ⟨hlegal, -⟩ := (state_wf_iff s).mp hs
  obtain ⟨-, -, -, hmax⟩ := (legal_iff s.inst).mp hlegal
  exact (Nat.le_div_iff_mul_le (width_pos s.inst)).mp ((wc_le_maxWords hs b).trans hmax)

/-- The words behind a bank are at most `2^29` bytes (R96). -/
theorem bytes_le {s : State} (hs : s.wf = true) (b : Nat) : s.wc b * (s.W / 8) ≤ 2 ^ 29 := by
  have hbits : s.wc b * (s.W / 8) * 8 ≤ 2 ^ 32 :=
    calc s.wc b * (s.W / 8) * 8 = s.wc b * (s.W / 8 * 8) := Nat.mul_assoc _ _ _
      _ ≤ s.wc b * s.W := Nat.mul_le_mul_left _ (Nat.div_mul_le_self _ 8)
      _ ≤ 2 ^ 32 := wc_mul_width_le hs b
  omega

/-! Stream bits followed by one record (R61). -/

theorem answers_stream_send (s : State) (bits : List Bool) (st : StatusCode) (data : Immediate) :
    Answers s (s.send (bits.map .stream ++ [.completion (completionRecord st data)])) bits st data := by
  rw [Answers, List.append_assoc]
  rfl

@[simp] theorem streamBitsOf_map_stream_append (bits : List Bool) (ts : List Transfer) :
    streamBitsOf (bits.map .stream ++ ts) = bits ++ streamBitsOf ts := by
  induction bits with
  | nil => rfl
  | cons v bits ih => exact congrArg (v :: ·) ih

/-- The stream bits of ITER are the slots below the capacity in index order. -/
theorem streamBitsOf_reply_iter {s : State} {rd : BankNumber} (hrd : rd.toNat < s.inst.nbanks) :
    streamBitsOf (reply (.iter rd) s) = (List.range (s.cap rd.toNat).toNat).map (s.slot rd.toNat) := by
  rw [reply_iter hrd, streamBitsOf_map_stream_append]
  exact List.append_nil _

/-- GET of an index below the capacity, the index given as a number, which IMM can hold. -/
theorem reply_get_ofNat {s : State} {rd : BankNumber} {i : Nat} (hrd : rd.toNat < s.inst.nbanks)
    (hi : i < (s.cap rd.toNat).toNat) :
    reply (.get rd (BitVec.ofNat 32 i)) s = [.completion (if s.slot rd.toNat i then 1 else 0)] := by
  have hidx : (BitVec.ofNat 32 i).toNat = i :=
    (BitVec.toNat_ofNat i 32).trans (Nat.mod_eq_of_lt (hi.trans (s.cap rd.toNat).isLt))
  rw [reply_get hrd (hidx.symm ▸ hi), hidx, completionRecord_bitData]

/-! The statements. -/

/-- Settles O41: the number of bytes is at most `2^29`, so DATA holds it. -/
theorem bytesCountsTheBackingWords : Obligations.BytesCountsTheBackingWords := by
  intro s rd hs hrd
  have hdata : (BitVec.ofNat 32 (s.wc rd.toNat * (s.W / 8))).toNat = s.wc rd.toNat * (s.W / 8) :=
    (BitVec.toNat_ofNat _ _).trans (Nat.mod_eq_of_lt (bytes_lt hs rd.toNat))
  exact ⟨_, _, exec_bytes_of_lt hrd, sameStores_send s _, answers_send rfl _ _, hdata,
    hdata.trans_le (bytes_le hs rd.toNat)⟩

/-- Settles O42: the bits sent are the slots below the capacity, in index order. -/
theorem iterStreamsTheLogicalBits : Obligations.IterStreamsTheLogicalBits := by
  intro s rd _ hrd
  refine ⟨_, _, exec_iter_of_lt hrd, sameStores_send s _, answers_stream_send s _ _ _, ?_, fun i hi => ?_⟩
  · rw [List.length_map, List.length_range]
  · rw [List.getElem?_map, List.getElem?_range hi, Option.map_some, slotIsMostSignificantBitFirst]

/-- Settles O43: index by index, ITER streams the slot that GET answers. -/
theorem iterStreamsWhatGetReturns : Obligations.IterStreamsWhatGetReturns := by
  intro s rd _ hrd
  rw [streamBitsOf_reply_iter hrd, List.map_map]
  exact List.map_congr_left fun i hi => (reply_get_ofNat hrd (List.mem_range.mp hi)).symm

end Sys2Proof.Machine
end

section
/-! PROOF. The exception family: each status has its one cause (R101 to R103, R105), an error leaves nothing behind
(R104, R107), and an idle engine holds its state (R112). -/

namespace Sys2Proof.Machine

/-! The bank range (R56). -/

theorem wellFormed_iff (i : Instr) (n : Nat) :
    i.wellFormed n = true ↔ i.rd.toNat < n ∧ (usesRs i.mnemonic = true → i.rs.toNat < n) := by
  cases i <;> simp [Instr.wellFormed, Instr.rd, Instr.rs, Instr.mnemonic, usesRs]

theorem exec_of_not_wellFormed {i : Instr} {s : State} (h : i.wellFormed s.inst.nbanks = false) :
    exec i s = s.raise .illegalCommand := by
  rw [← Bool.not_eq_true, wellFormed_iff] at h
  rcases exec_checks_banks i s with ⟨run, hexec⟩ | ⟨huse, run, hexec⟩
  · rcases onPair_cases s i.rd i.rs run with ⟨hrd, hrs, -⟩ | ⟨-, hraise⟩
    · exact absurd ⟨hrd, fun _ => hrs⟩ h
    · exact hexec.trans hraise
  · rcases onReceiver_cases s i.rd run with ⟨hrd, -⟩ | ⟨-, hraise⟩
    · exact absurd ⟨hrd, fun huse' => absurd huse' (by simp [huse])⟩ h
    · exact hexec.trans hraise

/-! The cause of each error (R100). -/

/-- The cause of each error of command `i` in `s` (R101 to R103, R105); IllegalCommand comes before the others (R106). -/
def Cause (i : Instr) (s : State) : ErrorKind → Prop
  | .illegalCommand => i.wellFormed s.inst.nbanks = false
  | .indexOutOfRange => i.wellFormed s.inst.nbanks = true ∧
      ((∃ rd idx, i = .get rd idx ∧ (s.cap rd.toNat).toNat ≤ idx.toNat) ∨
        (∃ rd idx bit, i = .set rd idx bit ∧ (s.cap rd.toNat).toNat ≤ idx.toNat))
  | .sizeMismatch => i.wellFormed s.inst.nbanks = true ∧ i.mnemonic ∈ [.AND, .OR, .XOR] ∧
      s.wc i.rd.toNat ≠ s.wc i.rs.toNat
  | .capacityRange => i.wellFormed s.inst.nbanks = true ∧
      ∃ rd cap, i = .init rd cap ∧ (cap.toNat = 0 ∨ s.inst.maxWords < divUp cap.toNat s.W)

/-- A binary bulk command on two present banks of different word counts raises SizeMismatch (R102). -/
theorem exec_of_wc_ne {i : Instr} {s : State} (hm : i.mnemonic ∈ [.AND, .OR, .XOR])
    (hrd : i.rd.toNat < s.inst.nbanks) (hrs : i.rs.toNat < s.inst.nbanks) (hwc : s.wc i.rd.toNat ≠ s.wc i.rs.toNat) :
    exec i s = s.raise .sizeMismatch := by
  cases i with
  | and rd rs | or rd rs | xor rd rs => exact bulkBinary_of_wc_ne hrd hrs hwc _
  | _ => simp [Instr.mnemonic] at hm

theorem usesRs_of_binary {m : Mnemonic} (hm : m ∈ [.AND, .OR, .XOR]) : usesRs m = true := by
  revert hm
  cases m <;> decide

/-- An error's cause makes the command raise that error. -/
theorem exec_of_cause {i : Instr} {s : State} {e : ErrorKind} (h : Cause i s e) : exec i s = s.raise e := by
  cases e with
  | illegalCommand => exact exec_of_not_wellFormed h
  | indexOutOfRange =>
    obtain ⟨hwf, ⟨rd, idx, rfl, hidx⟩ | ⟨rd, idx, bit, rfl, hidx⟩⟩ := h
    · exact (exec_get s rd idx).trans (indexed_of_le _ ((wellFormed_iff _ _).mp hwf).1 hidx)
    · exact (exec_set s rd idx bit).trans (indexed_of_le _ ((wellFormed_iff _ _).mp hwf).1 hidx)
  | sizeMismatch =>
    obtain ⟨hwf, hm, hwc⟩ := h
    obtain ⟨hrd, hrs⟩ := (wellFormed_iff _ _).mp hwf
    exact exec_of_wc_ne hm hrd (hrs (usesRs_of_binary hm)) hwc
  | capacityRange =>
    obtain ⟨hwf, rd, cap, rfl, hcap⟩ := h
    exact exec_init_of_refused ((wellFormed_iff _ _).mp hwf).1 ((capacityRefused_iff _ _).mpr hcap)

/-! The status of a command (R59). -/

/-- The status of the reply is the one on the ports. -/
theorem replyStatus_of_answers {i : Instr} {s t : State} {bits : List Bool} {st : StatusCode} {data : Immediate}
    (hexec : exec i s = .next t) (h : Answers s t bits st data) : replyStatus (reply i s) = some st := by
  have hsent : t.ports.sent = s.ports.sent ++ (bits.map .stream ++ [.completion (completionRecord st data)]) := by
    rw [h, ← List.append_assoc]
    rfl
  rw [reply_of_sent hexec hsent, replyStatus, completionsOf_append, completionsOf_map_stream]
  exact replyStatus_record st data

/-- One record that is OK, whatever became of the banks. -/
theorem replyStatus_of_record {i : Instr} {s u : State} {data : Immediate}
    (hexec : exec i s = .next (u.send [.completion (completionRecord statusOk data)])) (hports : u.ports = s.ports) :
    replyStatus (reply i s) = some statusOk :=
  replyStatus_of_answers hexec (answers_send hports statusOk data)

/-- A binary bulk command on two present banks is OK, or their word counts differ. -/
theorem bulkBinary_ok_or_wc_ne {i : Instr} {s : State} {f : BitVec s.W → BitVec s.W → BitVec s.W}
    (hi : exec i s = s.bulkBinary i.rd i.rs f) (hrd : i.rd.toNat < s.inst.nbanks) (hrs : i.rs.toNat < s.inst.nbanks) :
    replyStatus (reply i s) = some statusOk ∨ s.wc i.rd.toNat ≠ s.wc i.rs.toNat :=
  or_iff_not_imp_right.mpr fun hwc =>
    replyStatus_of_record (hi.trans (bulkBinary_of_wc_eq hrd hrs (not_not.mp hwc) f)) rfl

/-- An indexed access to a present bank, whose body completes, is OK, or its index is not below the capacity. -/
theorem indexed_ok_or_le {i : Instr} {s : State} {idx : Immediate} {run : Bank s.W → Nat → Result}
    (hi : exec i s = s.indexed i.rd idx run) (hrd : i.rd.toNat < s.inst.nbanks)
    (hrun : ∃ (u : State) (data : Immediate), run (s.bank i.rd.toNat) idx.toNat = u.complete data ∧ u.ports = s.ports) :
    replyStatus (reply i s) = some statusOk ∨ (s.cap i.rd.toNat).toNat ≤ idx.toNat := by
  obtain ⟨u, data, hu, hports⟩ := hrun
  exact or_iff_not_imp_right.mpr fun hidx =>
    replyStatus_of_record (hi.trans ((indexed_of_lt run hrd (Nat.not_le.mp hidx)).trans hu)) hports

/-- A command that is not OK has a cause of an error. -/
theorem ok_or_exists_cause (i : Instr) (s : State) :
    replyStatus (reply i s) = some statusOk ∨ ∃ e, Cause i s e := by
  cases hwf : i.wellFormed s.inst.nbanks
  · exact .inr ⟨.illegalCommand, hwf⟩
  obtain ⟨hrd, hrs⟩ := (wellFormed_iff i _).mp hwf
  cases i with
  | init rd cap =>
    cases hcap : capacityRefused s.inst cap
    · exact .inl (replyStatus_of_record (exec_init_of_accepted hrd hcap) rfl)
    · exact .inr ⟨.capacityRange, hwf, rd, cap, rfl, (capacityRefused_iff _ _).mp hcap⟩
  | get rd idx =>
    exact (indexed_ok_or_le (exec_get s rd idx) hrd ⟨s, _, rfl, rfl⟩).imp_right fun hidx =>
      ⟨.indexOutOfRange, hwf, .inl ⟨rd, idx, rfl, hidx⟩⟩
  | set rd idx bit =>
    exact (indexed_ok_or_le (exec_set s rd idx bit) hrd ⟨s.setBank _ _, _, rfl, rfl⟩).imp_right fun hidx =>
      ⟨.indexOutOfRange, hwf, .inr ⟨rd, idx, bit, rfl, hidx⟩⟩
  | and rd rs | or rd rs | xor rd rs =>
    exact (bulkBinary_ok_or_wc_ne rfl hrd (hrs rfl)).imp_right fun hwc =>
      ⟨.sizeMismatch, hwf, by simp [Instr.mnemonic], hwc⟩
  | not rd | lshift rd num | rshift rd num | fill rd bit =>
    exact .inl (replyStatus_of_record (bulkUnary_of_lt hrd _) rfl)
  | copy rd rs => exact .inl (replyStatus_of_record (exec_copy_of_lt hrd (hrs rfl)) rfl)
  | bytes rd => exact .inl (replyStatus_of_record (exec_bytes_of_lt hrd) rfl)
  | iter rd => exact .inl (replyStatus_of_answers (exec_iter_of_lt hrd) (answers_stream_send s _ _ _))

/-- A command's status is an error's code exactly when that error has its cause. -/
theorem replyStatus_eq_code_iff (i : Instr) (s : State) (e : ErrorKind) :
    replyStatus (reply i s) = some e.code ↔ Cause i s e := by
  refine ⟨fun hstatus => ?_, fun hcause => replyStatus_of_error (exec_of_cause hcause)⟩
  rcases ok_or_exists_cause i s with hok | ⟨e', hcause⟩
  · exact absurd (Option.some.inj (hstatus.symm.trans hok)) (code_ne_zero e)
  · have hcode := Option.some.inj (hstatus.symm.trans (replyStatus_of_error (exec_of_cause hcause)))
    exact code_injective hcode ▸ hcause

theorem code_toNat_le (e : ErrorKind) : e.code.toNat ≤ 4 := by
  cases e <;> decide

theorem exists_replyStatus_le (i : Instr) (s : State) :
    ∃ st, replyStatus (reply i s) = some st ∧ st.toNat ≤ 4 := by
  cases exec_ends i s with
  | ok _ hexec => exact ⟨statusOk, replyStatus_of_ok hexec, by decide⟩
  | error e hexec => exact ⟨e.code, replyStatus_of_error hexec, code_toNat_le e⟩

/-! The command after an error (R107). -/

/-- The stores a command leaves do not depend on what stands on the ports. -/
theorem sameStores_after_withPorts (j : Instr) (s : State) (p : Ports) :
    SameStores (after j s) (after j (s.withPorts p)) := by
  obtain ⟨m, bits, r, hs, hp⟩ := exec_answersAlike j s p
  rw [after_of_exec hs, after_of_exec hp]
  exact ⟨rfl, fun _ => ⟨rfl, rfl⟩⟩

/-- A command that is not OK raises an error. -/
theorem exec_of_status_ne_ok {i : Instr} {s : State} (h : replyStatus (reply i s) ≠ some 0x00) :
    ∃ e : ErrorKind, exec i s = s.raise e := by
  cases exec_ends i s with
  | ok _ hexec => exact absurd (replyStatus_of_ok hexec) h
  | error e hexec => exact ⟨e, hexec⟩

/-! One step at a ready state (R103, R112). -/

/-- At a ready state with nothing offered the engine idles. -/
theorem step_of_ready_idle {s : State} (hready : s.ready = true) (hcmd : s.ports.cmd = []) :
    step s = .next s.hostTurn := by
  rcases step_cases s with ⟨hreset, -⟩ | ⟨-, -, hstep⟩ | ⟨-, -, -, hstep⟩ | ⟨w, rest, -, -, hoffered, -⟩
  · rw [((ready_iff s).mp hready).1] at hreset
    contradiction
  · exact hstep
  · exact hstep
  · rw [hcmd] at hoffered
    contradiction

/-- A word that decodes to `i` is a legal word of the engine exactly when the banks of `i` exist. -/
theorem legal_word_iff {w : CommandWord} {i : Instr} (hdecode : decode w = .ok i) (n : Nat) :
    (∃ j : Instr, j.wellFormed n = true ∧ w = encode j) ↔ i.wellFormed n = true := by
  constructor
  · rintro ⟨j, hj, hw⟩
    have hij : Except.ok i = Except.ok j := hdecode.symm.trans ((decodeIsInverseOfEncode w j).mpr hw)
    exact Except.ok.inj hij ▸ hj
  · exact fun hi => ⟨i, hi, (decodeIsInverseOfEncode w i).mp hdecode⟩

/-! The statements. -/

/-- Settles O44: OK, or an error, which sends one record and nothing else. -/
theorem anErrorChangesNothing : Obligations.AnErrorChangesNothing := by
  intro i s
  cases exec_ends i s with
  | ok _ hexec => exact ⟨_, _, _, _, hexec, answers_stream_send s _ _ _, fun herror => absurd rfl herror⟩
  | error e hexec => exact ⟨_, [], _, _, hexec, answers_send rfl _ _, fun _ => ⟨sameStores_send s _, rfl, rfl⟩⟩

/-- Settles O45: one error, one code, one cause. -/
theorem statusNamesTheCause : Obligations.StatusNamesTheCause := by
  intro i s
  obtain ⟨st, hst, hle⟩ := exists_replyStatus_le i s
  have hcause : ∀ e : ErrorKind, st = e.code ↔ Cause i s e := fun e => by
    rw [← replyStatus_eq_code_iff, hst, Option.some_inj]
  exact ⟨st, hst, hcause .illegalCommand, hcause .indexOutOfRange, hcause .sizeMismatch, hcause .capacityRange, hle⟩

/-- Settles O46: an error changes the ports only, which no command reads. -/
theorem anErrorLeavesNoTrace : Obligations.AnErrorLeavesNoTrace := by
  intro i j s hstatus
  obtain ⟨e, hexec⟩ := exec_of_status_ne_ok hstatus
  rw [after_of_exec hexec]
  exact ⟨reply_withPorts j s _, sameStores_after_withPorts j s _⟩

/-- Settles O11: a word that decodes is illegal by its banks alone, and any other is illegal in every engine. -/
theorem illegalCommandExactlyForIllegalWords : Obligations.IllegalCommandExactlyForIllegalWords := by
  intro s w rest hready hcmd
  rw [step_of_ready hready hcmd]
  generalize hu : s.hostTurn.takeCommand rest = u
  have hinst : u.inst = s.inst := hu ▸ rfl
  rcases runWord_cases w u with ⟨i, hdecode, hrun⟩ | ⟨_, hdecode, hrun⟩
  · obtain ⟨t, bits, st, data, hexec, hanswers, -⟩ := anErrorChangesNothing i u
    refine ⟨t, bits, st, data, hrun.trans hexec, hanswers, ?_⟩
    have hcause := replyStatus_eq_code_iff i u .illegalCommand
    rw [replyStatus_of_answers hexec hanswers, Option.some_inj] at hcause
    rw [legal_word_iff hdecode, Bool.not_eq_true, ← hinst]
    exact hcause
  · refine ⟨_, [], _, _, hrun, answers_send rfl _ _, iff_of_true rfl ?_⟩
    rintro ⟨i, -, hw⟩
    rw [(decodeIsInverseOfEncode w i).mpr hw] at hdecode
    contradiction

/-- Settles O13: idling is the host's turn, which only hands over what was sent. -/
theorem idleEngineHoldsItsState : Obligations.IdleEngineHoldsItsState := by
  intro s hready hcmd
  exact ⟨_, step_of_ready_idle hready hcmd, ⟨rfl, fun _ => ⟨rfl, rfl⟩⟩, ports_hostTurn_sent _,
    (ports_hostTurn_cmd _).trans hcmd, ports_hostTurn_taken _⟩

end Sys2Proof.Machine
end

section
/-! PROOF. The reset and hazard family: an engine whose host does not take holds its state (R126), and the reset input
leads to the reset state from any state (R120 to R122). -/

namespace Sys2Proof.Machine

/-! The host's turn of a host that does not take (R126). -/

theorem hostTurn_eq_self {s : State} (htakes : s.ports.hostTakes = false) : s.hostTurn = s := by
  rw [State.hostTurn, Ports.hostTurn, htakes]
  rfl

/-! One step of an engine that takes no command (R120, R126). -/

theorem step_of_resetIn {s : State} (hreset : s.ports.resetIn = true) : step s = .next s.afterReset := by
  rcases step_cases s with ⟨-, hstep⟩ | ⟨hreleased, -⟩ | ⟨hreleased, -⟩ | ⟨_, _, hreleased, -⟩
  · exact hstep
  all_goals
    rw [hreset] at hreleased
    contradiction

/-- What is still owed after the host's turn keeps the engine from the next word (R62). -/
theorem step_of_waiting {s : State} (hreset : s.ports.resetIn = false) (hwaiting : s.hostTurn.waiting = true) :
    step s = .next s.hostTurn := by
  rcases step_cases s with ⟨hasserted, -⟩ | ⟨-, -, hstep⟩ | ⟨-, -, -, hstep⟩ | ⟨_, _, -, hdone, -⟩
  · rw [hreset] at hasserted
    contradiction
  · exact hstep
  · exact hstep
  · rw [hwaiting] at hdone
    contradiction

/-! The stores after reset (R121). -/

/-- The host's field is all that tells this state from the engine's reset state, and no store depends on it. -/
theorem sameStores_resetOf_afterReset (s : State) : SameStores (State.resetOf s.inst) s.afterReset :=
  ⟨rfl, fun _ => ⟨rfl, rfl⟩⟩

/-! The statements. -/

/-- Settles O14: the turn of a host that does not take leaves what is owed, so the engine waits. -/
theorem engineWaitsForTheHost : Obligations.EngineWaitsForTheHost := by
  intro s hreset htakes howed
  have hturn : s.hostTurn = s := hostTurn_eq_self htakes
  have hwaiting : s.hostTurn.waiting = true := by rwa [hturn, waiting_iff]
  rw [step_of_waiting hreset hwaiting, hturn]

/-- Settles O15: the stores are those of the reset state (O17), and the ports are the reset ones. -/
theorem resetInputEntersResetState : Obligations.ResetInputEntersResetState := by
  intro s hreset
  have hbanks : s.afterReset.mem.length = s.inst.nbanks := List.length_replicate
  refine ⟨s.afterReset, step_of_resetIn hreset, rfl, hbanks, fun b => ?_, rfl, rfl, rfl, rfl, rfl⟩
  obtain ⟨-, hsame⟩ := sameStores_resetOf_afterReset s
  obtain ⟨hcap, -, hwords⟩ := resetLeavesEveryBankUnconstructed s.inst b
  exact ⟨(hsame b).1.trans hcap, (hsame b).2.trans hwords⟩

end Sys2Proof.Machine
end
